-- ==== Sys2Proof/Word.lean ====
section
/-! DEFINITION. The word types of BCE40. Every value is unsigned, bit 0 the least significant (spec R11). -/

namespace Sys2Proof

/-- A byte or a character code (R8, `BYTE_W`). -/
abbrev Byte := BitVec 8

/-- A 5-bit symbol, 0..31 (R8, `SYM_W`; R12). -/
abbrev Symbol := BitVec 5

/-- A value of the 40-bit checksum register (R8, `CHK_W`; R22). -/
abbrev ChkWord := BitVec 40

/-- A 16-bit command word: `op` in bits 15:8, `arg` in bits 7:0 (R55). -/
abbrev CmdWord := BitVec 16

/-- A 32-bit response word (R56). -/
abbrev RspWord := BitVec 32

end Sys2Proof
end

