-- ==== Sys2Proof/Syntax.lean ====
section
/-! DEFINITION. The twelve commands of BCE40, one constructor per row of the opcode map (R62), with the operand each form
leaves after decoding (R57, R59). An operand that does not fit its form cannot be written down; the reserved bits that would spell
one are checked on the raw word (`WellFormed.lean`, `Decode.lean`). -/

namespace Sys2Proof

inductive Instr where
  /-- `RDST`: read status (R115). -/
  | rdst
  /-- `ECLR f`: clear the sticky flags of the 4-bit mask `f` (R116). -/
  | eclr (f : BitVec 4)
  /-- `SRST`: soft reset (R117). -/
  | srst
  /-- `A2S c`: character code to symbol (R77). -/
  | a2s (c : Byte)
  /-- `S2A s`: symbol to character code; values above 31 decode and fault at execution (R78, R57). -/
  | s2a (s : Byte)
  /-- `RINIT m`: start a conversion, `m[0]` = `DIR`, `m[1]` = `STRICT` (R87). -/
  | rinit (m : BitVec 2)
  /-- `RPUSH v`: push one input value (R88). -/
  | rpush (v : Byte)
  /-- `RFLUSH`: end of input (R89). -/
  | rflush
  /-- `CINIT`: start a checksum (R103). -/
  | cinit
  /-- `CSYM s`: feed one symbol; values above 31 decode and fault at execution (R104, R57). -/
  | csym (s : Byte)
  /-- `CPFX c`: feed the low five bits of a character code (R105). -/
  | cpfx (c : Byte)
  /-- `CGET k`: read checksum symbol `k` (R106). -/
  | cget (k : BitVec 3)
  deriving DecidableEq, Repr

end Sys2Proof
end

