-- ==== Sys2Proof/WellFormed.lean ====
section
/-! DEFINITION. Which commands are well formed: the operand forms of R57, the legal `arg` values of each, and the form each
assigned opcode takes (R62). A raw command is an `op` and an `arg` byte as the host may spell them; an `Instr` is one whose reserved
bits are gone. -/

namespace Sys2Proof

/-- The six operand forms (R57). -/
inductive Form where
  /-- no operand -/
  | Z
  /-- 8-bit byte or character code -/
  | B
  /-- 5-bit symbol carried in 8 bits -/
  | S
  /-- 2-bit mode -/
  | M
  /-- 3-bit index -/
  | K
  /-- 4-bit flag mask -/
  | F
  deriving DecidableEq, Repr

/-- The legal `arg` values of a form at decode (R57, third column; R60). -/
def Form.legalArg : Form → Byte → Bool
  | .Z, arg => arg == 0x00
  | .B, _ => true
  | .S, _ => true
  | .M, arg => arg.toNat ≤ 0x03
  | .K, arg => arg.toNat ≤ 0x07
  | .F, arg => arg.toNat ≤ 0x0F

/-- A command as the host may spell it, before any check (R55). -/
structure RawCommand where
  op  : Byte
  arg : Byte
  deriving DecidableEq, Repr

/-- The form of an assigned opcode; `none` for the 244 unassigned ones (R61, R62). -/
def formOfOp (op : Byte) : Option Form :=
  match op.toNat with
  | 0x01 => some .Z
  | 0x02 => some .F
  | 0x03 => some .Z
  | 0x10 => some .B
  | 0x11 => some .S
  | 0x20 => some .M
  | 0x21 => some .B
  | 0x22 => some .Z
  | 0x30 => some .Z
  | 0x31 => some .S
  | 0x32 => some .B
  | 0x33 => some .K
  | _ => none

/-- A raw command is well formed when its opcode is assigned and its `arg` legal for the form (R59). -/
def RawCommand.wellFormed (r : RawCommand) : Bool :=
  match formOfOp r.op with
  | some f => f.legalArg r.arg
  | none => false

/-- The form of a command (R62). -/
def Instr.form : Instr → Form
  | .rdst => .Z
  | .eclr _ => .F
  | .srst => .Z
  | .a2s _ => .B
  | .s2a _ => .S
  | .rinit _ => .M
  | .rpush _ => .B
  | .rflush => .Z
  | .cinit => .Z
  | .csym _ => .S
  | .cpfx _ => .B
  | .cget _ => .K

end Sys2Proof
end

