-- ==== Sys2Proof/Decode.lean ====
section
/-! DEFINITION. Decoding a 16-bit command word to a command or a named rejection, total on all 65536 words (R59 to R61); then the
opcode map as rows of mask and match (R62); then the encoder, written from the same map (R55, R57, R62). -/

namespace Sys2Proof

/-- Why a word spells no command (R61). Both raise `IllegalCommand` when executed. -/
inductive Illegal where
  /-- `op` is none of the twelve of R62 -/
  | unassignedOpcode (op : Byte)
  /-- `op` is assigned and a reserved bit of `arg` is set (R60) -/
  | reservedOperandBits (op arg : Byte)
  deriving DecidableEq, Repr

/-- `cmd[15:8]` (R55). -/
def opField (w : CmdWord) : Byte := w.extractLsb' 8 8

/-- `cmd[7:0]` (R55). -/
def argField (w : CmdWord) : Byte := w.extractLsb' 0 8

/-- A word from its two fields (R55). -/
def cmdWord (op arg : Byte) : CmdWord := op ++ arg

/-- Form Z: no operand; every bit of `arg` is reserved (R57, R60). -/
def decodeZ (op arg : Byte) (i : Instr) : Except Illegal Instr :=
  if arg = 0x00 then .ok i else .error (.reservedOperandBits op arg)

/-- Form M: operand `arg[1:0]`; bits 7:2 are reserved (R57, R60). -/
def decodeM (op arg : Byte) (i : BitVec 2 → Instr) : Except Illegal Instr :=
  if arg.extractLsb' 2 6 = 0 then .ok (i (arg.extractLsb' 0 2)) else .error (.reservedOperandBits op arg)

/-- Form K: operand `arg[2:0]`; bits 7:3 are reserved (R57, R60). -/
def decodeK (op arg : Byte) (i : BitVec 3 → Instr) : Except Illegal Instr :=
  if arg.extractLsb' 3 5 = 0 then .ok (i (arg.extractLsb' 0 3)) else .error (.reservedOperandBits op arg)

/-- Form F: operand `arg[3:0]`; bits 7:4 are reserved (R57, R60). -/
def decodeF (op arg : Byte) (i : BitVec 4 → Instr) : Except Illegal Instr :=
  if arg.extractLsb' 4 4 = 0 then .ok (i (arg.extractLsb' 0 4)) else .error (.reservedOperandBits op arg)

/-- Decoding (R59): look `op` up in R62, check `arg` against the form, take the operand. Forms B and S take all of `arg`. -/
def decode (w : CmdWord) : Except Illegal Instr :=
  let op := opField w
  let arg := argField w
  match op.toNat with
  | 0x01 => decodeZ op arg .rdst
  | 0x02 => decodeF op arg .eclr
  | 0x03 => decodeZ op arg .srst
  | 0x10 => .ok (.a2s arg)
  | 0x11 => .ok (.s2a arg)
  | 0x20 => decodeM op arg .rinit
  | 0x21 => .ok (.rpush arg)
  | 0x22 => decodeZ op arg .rflush
  | 0x30 => decodeZ op arg .cinit
  | 0x31 => .ok (.csym arg)
  | 0x32 => .ok (.cpfx arg)
  | 0x33 => decodeK op arg .cget
  | _ => .error (.unassignedOpcode op)

/-- A row of the opcode map: a word `w` is the command when `w & mask == value` (R62). -/
structure OpcodeRow where
  mnemonic : String
  mask     : CmdWord
  value    : CmdWord
  deriving DecidableEq, Repr

/-- The system rows of R62. -/
def systemRows : List OpcodeRow :=
  [⟨"RDST", 0xFFFF, 0x0100⟩, ⟨"ECLR", 0xFFF0, 0x0200⟩, ⟨"SRST", 0xFFFF, 0x0300⟩]

/-- The ALPHA rows of R62. -/
def alphaRows : List OpcodeRow :=
  [⟨"A2S", 0xFF00, 0x1000⟩, ⟨"S2A", 0xFF00, 0x1100⟩]

/-- The REGRP rows of R62. -/
def regrouperRows : List OpcodeRow :=
  [⟨"RINIT", 0xFFFC, 0x2000⟩, ⟨"RPUSH", 0xFF00, 0x2100⟩, ⟨"RFLUSH", 0xFFFF, 0x2200⟩]

/-- The POLY rows of R62. -/
def polyRows : List OpcodeRow :=
  [⟨"CINIT", 0xFFFF, 0x3000⟩, ⟨"CSYM", 0xFF00, 0x3100⟩, ⟨"CPFX", 0xFF00, 0x3200⟩, ⟨"CGET", 0xFFF8, 0x3300⟩]

/-- The opcode map in its order (R62). -/
def opcodeTable : List OpcodeRow := systemRows ++ alphaRows ++ regrouperRows ++ polyRows

/-- `w & mask == match` (R62). -/
def OpcodeRow.accepts (r : OpcodeRow) (w : CmdWord) : Bool := (w &&& r.mask) == r.value

/-- The mnemonic of a command as the opcode map spells it (R62). -/
def Instr.mnemonic : Instr → String
  | .rdst => "RDST"
  | .eclr _ => "ECLR"
  | .srst => "SRST"
  | .a2s _ => "A2S"
  | .s2a _ => "S2A"
  | .rinit _ => "RINIT"
  | .rpush _ => "RPUSH"
  | .rflush => "RFLUSH"
  | .cinit => "CINIT"
  | .csym _ => "CSYM"
  | .cpfx _ => "CPFX"
  | .cget _ => "CGET"

/-- The opcode of a command (R62). -/
def Instr.op : Instr → Byte
  | .rdst => 0x01
  | .eclr _ => 0x02
  | .srst => 0x03
  | .a2s _ => 0x10
  | .s2a _ => 0x11
  | .rinit _ => 0x20
  | .rpush _ => 0x21
  | .rflush => 0x22
  | .cinit => 0x30
  | .csym _ => 0x31
  | .cpfx _ => 0x32
  | .cget _ => 0x33

/-- The `arg` byte of a command: the operand in the low bits, zero-extended (R57). -/
def Instr.arg : Instr → Byte
  | .rdst => 0x00
  | .eclr f => f.setWidth 8
  | .srst => 0x00
  | .a2s c => c
  | .s2a s => s
  | .rinit m => m.setWidth 8
  | .rpush v => v
  | .rflush => 0x00
  | .cinit => 0x00
  | .csym s => s
  | .cpfx c => c
  | .cget k => k.setWidth 8

/-- Encoding: the command word of a command (R55, R57, R62). -/
def encode (i : Instr) : CmdWord := cmdWord i.op i.arg

/-- The raw command a command is spelled as. -/
def Instr.raw (i : Instr) : RawCommand := ⟨i.op, i.arg⟩

/-- Well-formedness of a command: that of the raw command it is spelled as (R59). -/
def Instr.wellFormed (i : Instr) : Bool := i.raw.wellFormed

/-- The host's view of the decoder: a word numbered as the opcode table numbers it (bit 0 the least significant of the one
16-bit word). A value of more than 16 bits is no command word (R55, R63). -/
def decodeTableWord (nbits w : Nat) : Option Instr :=
  if nbits ≤ 16 then
    match decode (BitVec.ofNat 16 (w % 2 ^ nbits)) with
    | .ok i => some i
    | .error _ => none
  else none

end Sys2Proof
end

