-- ==== Sys2Proof/Config.lean ====
section
/-! DEFINITION. The one parameter the spec leaves OPEN for the block, as a model argument: the 32nd alphabet character (R8, R75, D8,
U3). A machine has its choice in the field `config` of its state. Every other constant of R8 is fixed by the spec and stands in
`Machine/Tables.lean`. -/

namespace Sys2Proof

/-- What an implementation of BCE40 fixes: the character code of symbol 31 (`ALPHA31`, R75). -/
structure Config where
  alpha31 : Byte
  deriving DecidableEq, Repr

/-- The spec's default, `l` (R8, R75, D8). PRESUMED by the spec itself (its G1); log entry 6. -/
def Config.default : Config := ⟨0x6C⟩

end Sys2Proof
end

