-- ==== Sys2Proof/Machine/State.lean ====
section
/-! DEFINITION. The state of BCE40 as plain data: the six registers of R20, the two ports of R31 as the model's own lists, and
the block's choice of `ALPHA31`, which the spec makes an argument of the model (R8). -/

namespace Sys2Proof.Machine

/-- What the host does next (R15): issue one 16-bit command word (R14), or assert reset between two commands (R170). -/
inductive HostEvent where
  | command (w : CmdWord)
  | reset
  deriving DecidableEq, Repr

/-- The whole state. `chk` to `err` are the 56 bits of R20; `pending` and `responses` are not registers of the block but its
command and response ports (R31 (a), (b)), log entries 1 and 2; nor is `config` one, the constant this block was made with (R32; log
entry 17). -/
structure State where
  /-- `CHK`: the running checksum before the final XOR with 1 (R22). -/
  chk : BitVec 40
  /-- `ACC`: the bits pushed into the regrouper and not yet emitted (R23). -/
  acc : BitVec 7
  /-- `BITS`: how many low bits of `ACC` are such leftover bits (R24). -/
  bits : BitVec 3
  /-- `DIR`: false is 0 (8-to-5), true is 1 (5-to-8) (R29). -/
  dir : Bool
  /-- `STRICT`: false is 0 (lenient), true is 1 (strict) (R29). -/
  strict : Bool
  /-- `ERR`: sticky flags, bit 0 `E_ICHAR`, 1 `E_IARG`, 2 `E_IPAD`, 3 `E_ILL` (R28). -/
  err : BitVec 4
  /-- What the host will do, next first (log entry 1). -/
  pending : List HostEvent
  /-- The response words returned so far, oldest first (R51; log entry 2). -/
  responses : List RspWord
  /-- The block's `ALPHA31` (R8: OPEN as a model argument). No command, reset or other step writes it (R32; log entry 17). -/
  config : Config
  deriving DecidableEq, Repr

/-- Why the machine stops with a fault: never. A BCE40 fault is a response after which the block accepts the next command
(R150, R152), so no constructor exists (log entry 9; safe, nothing can be claimed through it). -/
inductive Fault where
  deriving DecidableEq, Repr

/-- Why the model gives no meaning. -/
inductive Refusal where
  /-- Raised by `exec`'s arm of a command that has no meaning yet; no arm of this model raises it. Safe. -/
  | notModelled (mnemonic : String)
  /-- Raised by any of the twelve commands in a state that breaks the regrouper invariant of R25: the spec gives the commands no
  meaning from such a state and says `refuse`, never a computed result (U19; log entry 5). No command or reset reaches such a
  state. Safe. -/
  | regrouperInvariantBroken
  deriving DecidableEq, Repr

/-- The outcome of a command or a step. -/
abbrev Result := Host.Outcome State Fault Refusal

/-- The state after hardware reset of the block with the spec's default `ALPHA31`: the six values of R35, nothing issued and nothing
returned (log entries 1, 2 and 6). -/
def State.reset : State :=
  { chk := 1, acc := 0, bits := 0, dir := false, strict := false, err := 0, pending := [], responses := [],
    config := Config.default }

/-- The same state after reset of the block with another `ALPHA31` (R8). -/
def State.resetWith (cfg : Config) : State := { State.reset with config := cfg }

end Sys2Proof.Machine
end

