-- ==== Sys2Proof/Machine/Flags.lean ====
section
/-! DEFINITION. The four fault kinds with their codes and sticky flags (R151), the derived flag `Z` (R27) and the `STATUS` view
(R30). -/

namespace Sys2Proof.Machine

/-- The fault kinds of the block (R150, R151). -/
inductive FaultKind where
  | invalidCharacter
  | invalidArgument
  | invalidPadding
  | illegalCommand
  deriving DecidableEq, Repr

/-- The error code of a kind, `rsp[31:28]` (R151). -/
def faultCode : FaultKind → BitVec 4
  | .invalidCharacter => 1
  | .invalidArgument => 2
  | .invalidPadding => 3
  | .illegalCommand => 15

/-- The sticky flag of a kind as a one-bit mask over `ERR` (R28, R151). -/
def faultFlag : FaultKind → BitVec 4
  | .invalidCharacter => 0b0001
  | .invalidArgument => 0b0010
  | .invalidPadding => 0b0100
  | .illegalCommand => 0b1000

/-- `Z`: the finished `polymod` value is 0, that is `CHK == 1` (R27). -/
def zFlag (s : State) : Bool := s.chk == 1

/-- `STATUS = {0000, ERR, 00, Z, BITS, STRICT, DIR}` (R30, R115). -/
def status (s : State) : BitVec 16 :=
  0#4 ++ s.err ++ 0#2 ++ BitVec.ofBool (zFlag s) ++ s.bits ++ BitVec.ofBool s.strict ++ BitVec.ofBool s.dir

end Sys2Proof.Machine
end

