-- ==== Sys2Proof/Machine/Operands.lean ====
section
/-! DEFINITION. The operand forms at execution (R57) and the widths the mode selects (R86). Forms B, K, F and Z are used as they
are decoded. -/

namespace Sys2Proof.Machine

/-- Form S: the symbol an 8-bit operand carries, or none when it is above `0x1F` (R57, R78, R104). -/
def operandSymbol (s : Byte) : Option Symbol := if s.toNat > 31 then none else some (s.setWidth 5)

/-- Form M: `arg[0]`, the new `DIR` (R57, R87). -/
def operandDir (m : BitVec 2) : Bool := m.getLsbD 0

/-- Form M: `arg[1]`, the new `STRICT` (R57, R87). -/
def operandStrict (m : BitVec 2) : Bool := m.getLsbD 1

/-- The symbol a prefix character feeds: its low five bits, the upper three ignored (R105). -/
def prefixSymbol (c : Byte) : Symbol := c.extractLsb' 0 5

/-- `from`: the input width of a direction (R86). -/
def fromWidth (dir : Bool) : Nat := if dir then 5 else 8

/-- `to`: the output width of a direction (R86). -/
def toWidth (dir : Bool) : Nat := if dir then 8 else 5

/-- `mask`: `2^to - 1` as a byte (R86). -/
def outMask (dir : Bool) : Byte := if dir then 0xFF else 0x1F

/-- Whether an input value has a bit at or above the input width: `v >> from != 0` (R88). -/
def tooWide (dir : Bool) (v : Byte) : Bool := (v >>> fromWidth dir) != 0

end Sys2Proof.Machine
end

