-- ==== Sys2Proof/Machine/Ops.lean ====
section
/-! DEFINITION. The shared operations: forming a response word (R56), completing a command, raising a fault (R152), the regrouper
invariant (R25) and the stop for states that break it (U19), the two resets (R170, R171), and executing an illegal word (R61). -/

namespace Sys2Proof.Machine

/-- What a command returns: `OK` with no, one or two data items, first-emitted first, or an error (R56, R64). -/
inductive Response where
  | ok0
  | ok1 (d0 : Byte)
  | ok2 (d0 d1 : Byte)
  | error (k : FaultKind)
  deriving DecidableEq, Repr

/-- The response word of its fields: `{err, n, 0 (10 bits), d1, d0}` (R56). -/
def rspWord (err : BitVec 4) (n : BitVec 2) (d1 d0 : Byte) : RspWord := err ++ n ++ 0#10 ++ d1 ++ d0

/-- The word a response is returned as; absent data items are 0 (R56). -/
def responseWord : Response → RspWord
  | .ok0 => rspWord 0 0 0 0
  | .ok1 d0 => rspWord 0 1 0 d0
  | .ok2 d0 d1 => rspWord 0 2 d1 d0
  | .error k => rspWord (faultCode k) 0 0 0

/-- The kind an error code names; none for 0 and for the codes 4 to 14 that are never produced (R56, R151). -/
def faultKindOfCode (c : BitVec 4) : Option FaultKind :=
  match c.toNat with
  | 1 => some .invalidCharacter
  | 2 => some .invalidArgument
  | 3 => some .invalidPadding
  | 15 => some .illegalCommand
  | _ => none

/-- The host's reading of a response word. A word that is never produced (codes 4 to 14, `n` = 3, reserved or absent data bits
not 0) is refused (R56, U11). -/
def responseOfWord (r : RspWord) : Option Response :=
  let d0 : Byte := r.extractLsb' 0 8
  let d1 : Byte := r.extractLsb' 8 8
  let candidate : Option Response :=
    if r.extractLsb' 28 4 = 0 then
      match (r.extractLsb' 26 2).toNat with
      | 0 => some .ok0
      | 1 => some (.ok1 d0)
      | 2 => some (.ok2 d0 d1)
      | _ => none
    else (faultKindOfCode (r.extractLsb' 28 4)).map .error
  candidate.filter (fun c => responseWord c == r)

/-- The response that returns a list of output values, `n` its length (R88, R89). No command has more than two (R56; log
entry 10). -/
def responseOfData : List Byte → Response
  | [] => .ok0
  | [d0] => .ok1 d0
  | d0 :: d1 :: _ => .ok2 d0 d1

/-- One response word delivered on the response port, after all earlier ones (R51). -/
def respond (r : Response) (s : State) : State := { s with responses := s.responses ++ [responseWord r] }

/-- `return OK(d...)`: the command ends in state `s` with its data (R13). -/
def finish (r : Response) (s : State) : Result := .next (respond r s)

/-- The state a fault leaves: its sticky flag set and nothing else changed (R28, R152 (a), (b)). -/
def withFlag (k : FaultKind) (s : State) : State := { s with err := s.err ||| faultFlag k }

/-- `raise <Kind>`, the one fault entry of the block: sticky flag, no other register, the error response, and the block accepts the
next command (R13, R152). -/
def raise (k : FaultKind) (s : State) : Result := .next (respond (.error k) (withFlag k s))

/-- The regrouper invariant: `BITS <= to - 1` and `ACC < 2^BITS` (R25). -/
def regrouperOk (s : State) : Bool := s.bits.toNat < toWidth s.dir && s.acc.toNat < 2 ^ s.bits.toNat

/-- A command runs where the invariant holds and is refused elsewhere (R25, U19; log entry 5). -/
def whenRegrouperOk (s : State) (r : Result) : Result :=
  if regrouperOk s then r else .refused .regrouperInvariantBroken

/-- All six registers at their reset values, the ports untouched and the tables as they are (R32, R35, R117, R170). -/
def resetRegisters (s : State) : State :=
  { State.reset with pending := s.pending, responses := s.responses, config := s.config }

/-- Hardware reset: a step of its own between two commands, with no response word (R170). -/
def hardReset (s : State) : Result := .next (resetRegisters s)

/-- An illegal word: `IllegalCommand`, whatever the state (R61, R156). -/
def execIllegal (s : State) : Result := raise .illegalCommand s

/-- Nothing pending: between commands the block waits and holds its six registers (R167, R172; log entry 3). -/
def idle (s : State) : Result := .next s

end Sys2Proof.Machine
end

