-- ==== Sys2Proof/Machine/Tables.lean ====
section
/-! DEFINITION. The constants of R8 and the constant tables of R32: the generators `GEN`, and the alphabet `ALPHA`. -/

namespace Sys2Proof.Machine

/-- `CHK_INIT` (R8, R100). -/
def chkInit : ChkWord := 1

/-- `CHK_FINAL_XOR` (R8, R100). -/
def chkFinalXor : ChkWord := 1

/-- `GEN[0..4]` in listing order; `GEN[i]` goes with bit `i` of `topBits` (R101). -/
def generators : List ChkWord :=
  [0x98f2bc8e61, 0x79b76d99e2, 0xf33e5fb3c4, 0xae2eabe2a8, 0x1e4f43e470]

/-- Codes of symbols 0 to 15: `q p z r y 9 x 8 g f 2 t v d w 0` (R75). -/
def alphaLow : List Byte :=
  [0x71, 0x70, 0x7A, 0x72, 0x79, 0x39, 0x78, 0x38] ++ [0x67, 0x66, 0x32, 0x74, 0x76, 0x64, 0x77, 0x30]

/-- Codes of symbols 16 to 30: `s 3 j n 5 4 k h c e 6 m u a 7` (R75). -/
def alphaHigh : List Byte :=
  [0x73, 0x33, 0x6A, 0x6E, 0x35, 0x34, 0x6B, 0x68] ++ [0x63, 0x65, 0x36, 0x6D, 0x75, 0x61, 0x37]

/-- The 31 codes the source prints, symbols 0 to 30 (R75). -/
def alphaPrinted : List Byte := alphaLow ++ alphaHigh

/-- `ALPHA[0..31]` of a configuration: the printed codes, then `ALPHA31` (R75). -/
def alphaTable (cfg : Config) : List Byte := alphaPrinted ++ [cfg.alpha31]

/-- The codes `A`..`Z` (R76). -/
def isUpper (c : Byte) : Bool := 0x41 ≤ c.toNat && c.toNat ≤ 0x5A

/-- The codes `a`..`z` (G2). -/
def isLower (c : Byte) : Bool := 0x61 ≤ c.toNat && c.toNat ≤ 0x7A

/-- The case fold of `A2S`: `A`..`Z` go to `c + 0x20`, every other code is looked up as it is (R76). -/
def foldCase (c : Byte) : Byte := if isUpper c then c + 0x20 else c

/-- What U3 and D8 ask of `ALPHA31`: below `0x80`, and after case folding none of the other 31 codes. That it is a folded code
itself (so that `S2A 31` is never uppercase, R78) is log entry 7. -/
def legalConfig (cfg : Config) : Bool :=
  (cfg.alpha31.toNat < 0x80) && (foldCase cfg.alpha31 == cfg.alpha31) && !alphaPrinted.contains cfg.alpha31

/-- `ALPHA[s]`: the code of a symbol (R75). Every symbol has an entry, so the default is never taken. -/
def alphaOf (cfg : Config) (s : Symbol) : Byte := (alphaTable cfg).getD s.toNat 0

/-- `RALPHA`: the symbol whose code the case-folded `c` is, or none (R32, R77). -/
def symbolOf (cfg : Config) (c : Byte) : Option Symbol :=
  ((alphaTable cfg).findIdx? (fun a => a == foldCase c)).map (BitVec.ofNat 5)

end Sys2Proof.Machine
end

