-- ==== Sys2Proof/Machine/Alphabet.lean ====
section
/-! DEFINITION. The alphabet lookup commands (spec 40_alphabet.md). -/

namespace Sys2Proof.Machine

/-- `A2S c` (R77): the symbol of the case-folded code in the block's own table, or `InvalidCharacter`. -/
def execA2s (c : Byte) (s : State) : Result :=
  whenRegrouperOk s <|
    match symbolOf s.config c with
    | some i => finish (.ok1 (i.setWidth 8)) s
    | none => raise .invalidCharacter s

/-- `S2A v` (R78): the code of a symbol in the block's own table, or `InvalidArgument` above 31. -/
def execS2a (v : Byte) (s : State) : Result :=
  whenRegrouperOk s <|
    match operandSymbol v with
    | some i => finish (.ok1 (alphaOf s.config i)) s
    | none => raise .invalidArgument s

end Sys2Proof.Machine
end

