-- ==== Sys2Proof/Machine/Checksum.lean ====
section
/-! DEFINITION. The polynomial checksum commands (spec 42_checksum.md). -/

namespace Sys2Proof.Machine

/-- The conditional XORs of R102: generator number `i` of the list goes in when bit `i` of `top` is set, counting on from `i`. -/
def applyGenerators (top : Symbol) : Nat → List ChkWord → ChkWord → ChkWord
  | _, [], c => c
  | i, g :: gs, c => applyGenerators top (i + 1) gs (if top.getLsbD i then c ^^^ g else c)

/-- One update step `step(c, s)` (R102). -/
def polyStep (c : ChkWord) (s : Symbol) : ChkWord :=
  applyGenerators (c.extractLsb' 35 5) 0 generators ((c.extractLsb' 0 35 ++ 0#5) ^^^ s.setWidth 40)

/-- The checksum symbol `k` of a finished value `p`: bits `39-5k .. 35-5k` (R44, R106). -/
def checksumSymbol (p : ChkWord) (k : BitVec 3) : Symbol := p.extractLsb' (5 * (7 - k.toNat)) 5

/-- `CINIT` (R103). -/
def execCinit (s : State) : Result :=
  whenRegrouperOk s <| finish .ok0 { s with chk := chkInit }

/-- `CSYM v` (R104). -/
def execCsym (v : Byte) (s : State) : Result :=
  whenRegrouperOk s <|
    match operandSymbol v with
    | some i => finish .ok0 { s with chk := polyStep s.chk i }
    | none => raise .invalidArgument s

/-- `CPFX c` (R105). -/
def execCpfx (c : Byte) (s : State) : Result :=
  whenRegrouperOk s <| finish .ok0 { s with chk := polyStep s.chk (prefixSymbol c) }

/-- `CGET k` (R106): a symbol of `CHK ^ 1`, which is formed here and not stored. -/
def execCget (k : BitVec 3) (s : State) : Result :=
  whenRegrouperOk s <| finish (.ok1 ((checksumSymbol (s.chk ^^^ chkFinalXor) k).setWidth 8)) s

end Sys2Proof.Machine
end

