-- ==== Sys2Proof/Machine/Regrouper.lean ====
section
/-! DEFINITION. The bit-width regrouper commands (spec 41_regrouper.md). -/

namespace Sys2Proof.Machine

/-- `RINIT m` (R87): the new mode, and an empty accumulator. -/
def execRinit (m : BitVec 2) (s : State) : Result :=
  whenRegrouperOk s <|
    finish .ok0 { s with dir := operandDir m, strict := operandStrict m, acc := 0, bits := 0 }

/-- The loop of R88: while the count `b` is at least `to`, lower it by `to` and emit `(a >> b) & mask`. It answers the outputs,
first-emitted first, and the count left. The first argument bounds the rounds. -/
def emitWhole (dir : Bool) (a : BitVec 12) : Nat → Nat → List Byte × Nat
  | 0, b => ([], b)
  | n + 1, b =>
    if toWidth dir ≤ b then
      let rest := emitWhole dir a n (b - toWidth dir)
      (((a >>> (b - toWidth dir)).setWidth 8 &&& outMask dir) :: rest.1, rest.2)
    else ([], b)

/-- `a = (zext_12(ACC) << from) | v` (R88). -/
def pushed (v : Byte) (s : State) : BitVec 12 :=
  (s.acc.setWidth 12 <<< fromWidth s.dir) ||| v.setWidth 12

/-- The outputs and the count left after pushing `v`; the loop runs at most twice (R88, R181; log entry 10). -/
def pushOutputs (v : Byte) (s : State) : List Byte × Nat :=
  emitWhole s.dir (pushed v s) 2 (s.bits.toNat + fromWidth s.dir)

/-- `ACC <- a & (2^b - 1) ; BITS <- b` (R88). -/
def withLeftover (a : BitVec 12) (b : Nat) (s : State) : State :=
  { s with acc := a.setWidth 7 &&& BitVec.ofNat 7 (2 ^ b - 1), bits := BitVec.ofNat 3 b }

/-- `RPUSH v` (R88). -/
def execRpush (v : Byte) (s : State) : Result :=
  whenRegrouperOk s <|
    if tooWide s.dir v then raise .invalidArgument s
    else finish (responseOfData (pushOutputs v s).1) (withLeftover (pushed v s) (pushOutputs v s).2 s)

/-- `pad = (zext_8(ACC) << (to - BITS)) & mask` (R89). -/
def padValue (s : State) : Byte :=
  (s.acc.setWidth 8 <<< (toWidth s.dir - s.bits.toNat)) &&& outMask s.dir

/-- The regrouper emptied, its mode kept (R89). -/
def emptied (s : State) : State := { s with acc := 0, bits := 0 }

/-- `RFLUSH` (R89). -/
def execRflush (s : State) : Result :=
  whenRegrouperOk s <|
    if s.strict then
      if fromWidth s.dir ≤ s.bits.toNat ∨ padValue s ≠ 0 then raise .invalidPadding s
      else finish .ok0 (emptied s)
    else finish (responseOfData (if 0 < s.bits.toNat then [padValue s] else [])) (emptied s)

end Sys2Proof.Machine
end

