-- ==== Sys2Proof/Machine/System.lean ====
section
/-! DEFINITION. The system commands (spec 43_system.md). -/

namespace Sys2Proof.Machine

/-- `RDST` (R115): both bytes of `STATUS`, low byte first; reading clears nothing. -/
def execRdst (s : State) : Result :=
  whenRegrouperOk s <| finish (.ok2 ((status s).extractLsb' 0 8) ((status s).extractLsb' 8 8)) s

/-- `ECLR f` (R116): `ERR <- ERR & ~f`. -/
def execEclr (f : BitVec 4) (s : State) : Result :=
  whenRegrouperOk s <| finish .ok0 { s with err := s.err &&& ~~~f }

/-- `SRST` (R117): the reset state, and a response (R171). -/
def execSrst (s : State) : Result :=
  whenRegrouperOk s <| finish .ok0 (resetRegisters s)

end Sys2Proof.Machine
end

