-- ==== Sys2Proof/Machine/Dispatch.lean ====
section
/-! DEFINITION. One arm per command, each a direct call of its meaning. -/

namespace Sys2Proof.Machine

def exec (i : Instr) (s : State) : Host.Outcome State Fault Refusal :=
  match i with
  | .rdst => Sys2Proof.Machine.execRdst s
  | .eclr f => Sys2Proof.Machine.execEclr f s
  | .srst => Sys2Proof.Machine.execSrst s
  | .a2s c => Sys2Proof.Machine.execA2s c s
  | .s2a v => Sys2Proof.Machine.execS2a v s
  | .rinit m => Sys2Proof.Machine.execRinit m s
  | .rpush v => Sys2Proof.Machine.execRpush v s
  | .rflush => Sys2Proof.Machine.execRflush s
  | .cinit => Sys2Proof.Machine.execCinit s
  | .csym v => Sys2Proof.Machine.execCsym v s
  | .cpfx c => Sys2Proof.Machine.execCpfx c s
  | .cget k => Sys2Proof.Machine.execCget k s

end Sys2Proof.Machine
end

