-- ==== Sys2Proof/Machine/Step.lean ====
section
/-! DEFINITION. One step: the block waits, is reset, or executes the one command word the host presents (R14, R15, R51, R170). -/

namespace Sys2Proof.Machine

/-- One command word executed: the command it decodes to, or `IllegalCommand` (R59, R61, R158). -/
def runWord (w : CmdWord) (s : State) : Host.Outcome State Fault Refusal :=
  match decode w with
  | .ok i => exec i s
  | .error _ => execIllegal s

/-- The next event of the host, taken off the command port, then its effect. -/
def step (s : State) : Host.Outcome State Fault Refusal :=
  match s.pending with
  | [] => idle s
  | .reset :: rest => hardReset { s with pending := rest }
  | .command w :: rest => runWord w { s with pending := rest }

/-- `s` with the command word presented as the host's very next event. BCE40 has no program counter and fetches nothing (R26):
the word stands first on the command port, what the host would do after it stays behind it (log entry 1). -/
def State.withFetchWord (s : State) (nbits w : Nat) : State :=
  { s with pending := .command (BitVec.ofNat 16 (w % 2 ^ nbits)) :: s.pending }

end Sys2Proof.Machine
end

