-- ==== Sys2Proof/Machine/Assembler.lean ====
section
/-! DEFINITION. The spec's way of writing commands (R65) and its pseudo-commands (R66). The block never sees either; the lexical
level (digits, quotes, comments) is left out (log entry 15). -/

namespace Sys2Proof.Machine

/-- An assembler operand after lexing (R65). -/
inductive AsmOperand where
  /-- no operand -/
  | nothing
  /-- a number -/
  | number (n : Nat)
  /-- a character in single quotes: its code -/
  | character (c : Byte)
  /-- `dir,strict` -/
  | mode (dir strict : Bool)
  deriving DecidableEq, Repr

/-- A numeric operand below a bound. -/
def asmNumber (bound : Nat) (o : AsmOperand) : Option Nat :=
  match o with
  | .number n => if n < bound then some n else none
  | _ => none

/-- A form B operand: a number or a quoted character (R65). -/
def asmByte (o : AsmOperand) : Option Byte :=
  match o with
  | .character c => some c
  | o => (asmNumber 256 o).map (BitVec.ofNat 8)

/-- One line of assembler: mnemonic and at most one operand (R65). -/
def assemble (mnemonic : String) (o : AsmOperand) : Option Instr :=
  match mnemonic, o with
  | "RDST", .nothing => some .rdst
  | "ECLR", o => (asmNumber 16 o).map fun n => .eclr (BitVec.ofNat 4 n)
  | "SRST", .nothing => some .srst
  | "A2S", o => (asmByte o).map .a2s
  | "S2A", o => (asmNumber 256 o).map fun n => .s2a (BitVec.ofNat 8 n)
  | "RINIT", .mode d st => some (.rinit (BitVec.ofBool st ++ BitVec.ofBool d))
  | "RPUSH", o => (asmByte o).map .rpush
  | "RFLUSH", .nothing => some .rflush
  | "CINIT", .nothing => some .cinit
  | "CSYM", o => (asmNumber 256 o).map fun n => .csym (BitVec.ofNat 8 n)
  | "CPFX", o => (asmByte o).map .cpfx
  | "CGET", o => (asmNumber 8 o).map fun n => .cget (BitVec.ofNat 3 n)
  | _, _ => none

/-- The six pseudo-commands (R66). -/
inductive Pseudo where
  | csep
  | cpad8
  | cpfxs (p : List Byte)
  | r8to5
  | r5to8s
  | cget8
  deriving DecidableEq, Repr

/-- What the host software expands a pseudo-command to before issue (R66). -/
def expand : Pseudo → List Instr
  | .csep => [.csym 0]
  | .cpad8 => List.replicate 8 (.csym 0)
  | .cpfxs p => p.map .cpfx
  | .r8to5 => [.rinit 0]
  | .r5to8s => [.rinit 3]
  | .cget8 => [.cget 0, .cget 1, .cget 2, .cget 3, .cget 4, .cget 5, .cget 6, .cget 7]

end Sys2Proof.Machine
end

