-- ==== Sys2Proof/Machine/Reference.lean ====
section
/-! DEFINITION. The whole-sequence functions the commands stream, as the spec writes them: `convertBits` (R85) and `polymod`
(R100), the packing of eight checksum symbols (R44), and the program a host issues command by command (R14). The machine does not call them. -/

namespace Sys2Proof.Machine

/-- The inner loop of R85: while `bits >= to`, lower `bits` by `to` and emit `(acc >> bits) & mask`. The first argument bounds the
rounds; as many as `bits` are enough for `to >= 1`. DESIGN CHOICE (log entry 18): for `to = 0` the bound cuts an endless loop. -/
def emitNats (toBits acc : Nat) : Nat → Nat → List Nat × Nat
  | 0, bits => ([], bits)
  | n + 1, bits =>
    if toBits ≤ bits then
      let rest := emitNats toBits acc n (bits - toBits)
      (((acc >>> (bits - toBits)) &&& (2 ^ toBits - 1)) :: rest.1, rest.2)
    else ([], bits)

/-- The outer loop of R85 from an accumulator and a bit count: the outputs, the accumulator and the count; none is
`InvalidArgument`. -/
def convertLoop (fromBits toBits : Nat) : List Nat → Nat → Nat → Option (List Nat × Nat × Nat)
  | [], acc, bits => some ([], acc, bits)
  | v :: vs, acc, bits =>
    if v >>> fromBits ≠ 0 then none
    else
      let acc' := (acc <<< fromBits) ||| v
      let e := emitNats toBits acc' (bits + fromBits) (bits + fromBits)
      match convertLoop fromBits toBits vs acc' e.2 with
      | none => none
      | some (out, a, b) => some (e.1 ++ out, a, b)

/-- `convertBits(data, from, to, strict)` (R85), which the spec states for `from >= 1` and `to >= 1`. DESIGN CHOICE (log entry 18): what
it answers for a width of 0, which N7 leaves open, is the model's own and no rule's. -/
def convertBits (data : List Nat) (fromBits toBits : Nat) (strict : Bool) : Except FaultKind (List Nat) :=
  match convertLoop fromBits toBits data 0 0 with
  | none => .error .invalidArgument
  | some (out, acc, bits) =>
    let rem := acc &&& (2 ^ bits - 1)
    let pad := (rem <<< (toBits - bits)) &&& (2 ^ toBits - 1)
    if strict then
      if fromBits ≤ bits ∨ pad ≠ 0 then .error .invalidPadding else .ok out
    else if 0 < bits then .ok (out ++ [pad]) else .ok out

/-- `CHK` after feeding a sequence from a starting value (R100, R110 `raw`). -/
def feedSymbols (c : ChkWord) (symbols : List Symbol) : ChkWord := symbols.foldl polyStep c

/-- `polymod(symbols)` (R100). -/
def polymod (symbols : List Symbol) : ChkWord := feedSymbols chkInit symbols ^^^ chkFinalXor

/-- The eight symbols of a 40-bit value, most significant first (R44). -/
def checksumSymbols (p : ChkWord) : List Symbol :=
  [0, 1, 2, 3, 4, 5, 6, 7].map (checksumSymbol p)

/-- A list of commands executed in order, stopping where the model stops (R14: a program and its run). -/
def runCommands : List Instr → State → Result
  | [], s => .next s
  | i :: is, s =>
    match exec i s with
    | .next t => runCommands is t
    | .fault f => .fault f
    | .refused r => .refused r

/-- The data items of a response, first-emitted first, or its fault (R56). -/
def responseData : Response → Except FaultKind (List Byte)
  | .ok0 => .ok []
  | .ok1 d0 => .ok [d0]
  | .ok2 d0 d1 => .ok [d0, d1]
  | .error k => .error k

end Sys2Proof.Machine
end

