-- ==== Sys2Proof/Machine/Address.lean ====
section
/-! DEFINITION. The surrounding software as host functions over `exec` (spec 44_host_sequences.md): the address encoder (R131) and
decoder (R132 to R138). Nothing here adds state, commands or faults to the block (R125). Strings are lists of character codes. -/

namespace Sys2Proof.Machine

/-- `AddressType` (R127). -/
inductive AddressType where
  | pubkeyHash
  | scriptHash
  deriving DecidableEq, Repr

/-- The ten error kinds of D0 (R139), and a last one for what the spec gives no result (U5) or the block refuses (U19). -/
inductive CallError where
  | invalidCharacter
  | invalidArgument
  | invalidPadding
  | mixedCase
  | invalidFormat
  | invalidChecksum
  | unsupportedHashSize
  | invalidVersionByte
  | hashSizeMismatch
  | invalidAddressType
  | noMeaning
  deriving DecidableEq, Repr

/-- The error a host reports for a fault of the block (R139). No command raises `IllegalCommand`, only a word that is none does. -/
def callErrorOf : FaultKind → CallError
  | .invalidCharacter => .invalidCharacter
  | .invalidArgument => .invalidArgument
  | .invalidPadding => .invalidPadding
  | .illegalCommand => .noMeaning

/-- A call's result so far, and the block as the call leaves it. -/
structure Call (α : Type) where
  result : Except CallError α
  block  : State

/-- The next stage of a call; a failed call is abandoned (R178). -/
def Call.andThen {α β : Type} (c : Call α) (f : α → State → Call β) : Call β :=
  match c.result with
  | .ok a => f a c.block
  | .error e => ⟨.error e, c.block⟩

/-- One command issued and its response read (R14). -/
def issue (i : Instr) (s : State) : Option (Response × State) :=
  match exec i s with
  | .next t => ((t.responses.getLast?).bind responseOfWord).map fun r => (r, t)
  | _ => none

/-- Commands issued in order, their data items collected; the host stops at the first fault (R178). -/
def issueAll : List Instr → State → Call (List Byte)
  | [], s => ⟨.ok [], s⟩
  | i :: is, s =>
    match issue i s with
    | none => ⟨.error .noMeaning, s⟩
    | some (r, t) =>
      match responseData r with
      | .error k => ⟨.error (callErrorOf k), t⟩
      | .ok data => (issueAll is t).andThen fun rest u => ⟨.ok (data ++ rest), u⟩

/-- Commands issued in order whatever the responses, each with the response the block gave it, and the block as they leave it; none
where the block gives no response. -/
def trace : List Instr → State → Option (List (Instr × Response) × State)
  | [], s => some ([], s)
  | i :: is, s =>
    match issue i s with
    | none => none
    | some (r, t) => (trace is t).map fun p => ((i, r) :: p.1, p.2)

/-- `:` (R130; its code is G2). -/
def colon : Byte := 0x3A

/-- The size table, hash bits and size code (R126). -/
def sizeTable : List (Nat × Nat) :=
  [(160, 0), (192, 1), (224, 2), (256, 3), (320, 4), (384, 5), (448, 6), (512, 7)]

/-- The size code of a hash length in bits (R126). -/
def sizeCode (hashBits : Nat) : Option Nat := (sizeTable.find? fun p => p.1 == hashBits).map Prod.snd

/-- The inverse of the size table (R136). -/
def hashBitsOfCode (code : Nat) : Option Nat := (sizeTable.find? fun p => p.2 == code).map Prod.fst

/-- `typeBits` (R127). -/
def typeBits : AddressType → Nat
  | .pubkeyHash => 0
  | .scriptHash => 8

/-- `versionByte = typeBits(type) + sizeCode` (R128). -/
def versionByte (t : AddressType) (code : Nat) : Byte := BitVec.ofNat 8 (typeBits t + code)

/-- The type of a version byte: `versionByte & 0x78`; bit 7 is tested by no step (R137, U6). -/
def typeOfVersion (v : Byte) : Option AddressType :=
  if v &&& 0x78 = 0 then some .pubkeyHash else if v &&& 0x78 = 8 then some .scriptHash else none

/-- A whole conversion in mode `m` (R131 step 3, R135). -/
def conversionCommands (m : BitVec 2) (values : List Byte) : List Instr :=
  .rinit m :: (values.map .rpush ++ [.rflush])

/-- The checksum input up to and with the given symbols: the characters of the network prefix, the separator, the symbols (R107). -/
def checksumCommands (pre symbols : List Byte) : List Instr :=
  .cinit :: (expand (.cpfxs pre) ++ expand .csep ++ symbols.map .csym)

/-- Generation: eight zero placeholders, then the eight symbols read (R108). -/
def generationCommands (pre payload : List Byte) : List Instr :=
  checksumCommands pre payload ++ expand .cpad8 ++ expand .cget8

/-- Validation: the actual checksum symbols, then the status read (R109, R133). -/
def validationCommands (pre symbols : List Byte) : List Instr :=
  checksumCommands pre symbols ++ [.rdst]

/-- `encode(hash, type, prefix, includePrefix)` (R131). -/
def encodeAddress (hash : List Byte) (t : AddressType) (pre : List Byte) (includePre : Bool) (s : State) : Call (List Byte) :=
  match sizeCode (hash.length * 8) with
  | none => ⟨.error .unsupportedHashSize, s⟩
  | some code =>
    (issueAll (conversionCommands 0 (versionByte t code :: hash)) s).andThen fun payload s =>
    (issueAll (generationCommands pre payload) s).andThen fun check s =>
    (issueAll ((payload ++ check).map .s2a) s).andThen fun text s =>
      ⟨.ok (if includePre then pre ++ [colon] ++ text else text), s⟩

/-- Entirely lowercase or entirely uppercase; characters without case are ignored (R132, U7; log entry 11). -/
def singleCase (text : List Byte) : Bool := !text.any isUpper || !text.any isLower

/-- A string split at every `:` (R132). -/
def splitColon : List Byte → List (List Byte)
  | [] => [[]]
  | c :: cs =>
    if c == colon then [] :: splitColon cs
    else
      match splitColon cs with
      | [] => [[c]]
      | p :: ps => (c :: p) :: ps

/-- Whether a network prefix and a symbol sequence validate: `Z` in `STATUS`, bit 5 of the low byte (R109, R133). -/
def validates (pre symbols : List Byte) (s : State) : Call Bool :=
  (issueAll (validationCommands pre symbols) s).andThen fun data s =>
    match data with
    | d0 :: _ => ⟨.ok (d0.getLsbD 5), s⟩
    | [] => ⟨.error .noMeaning, s⟩

/-- The first of the candidates that validates, else `InvalidChecksum` (R133, R134). -/
def findPre (symbols : List Byte) : List (List Byte) → State → Call (List Byte)
  | [], s => ⟨.error .invalidChecksum, s⟩
  | p :: ps, s =>
    (validates p symbols s).andThen fun good s => if good then ⟨.ok p, s⟩ else findPre symbols ps s

/-- Decode steps 6 to 8 on the regrouped bytes (R136, R137). -/
def readPayload (bytes : List Byte) : Except CallError (List Byte × AddressType) :=
  match bytes with
  | [] => .error .invalidVersionByte
  | v :: hash =>
    if hashBitsOfCode (v &&& 7).toNat ≠ some (hash.length * 8) then .error .hashSizeMismatch
    else
      match typeOfVersion v with
      | none => .error .invalidAddressType
      | some t => .ok (hash, t)

/-- Decode steps 4 to 8, with the candidates to try and the characters after the separator (R133 to R137). Fewer than eight
symbols to strip has no result (R135, U5). -/
def decodeData (candidates : List (List Byte)) (text : List Byte) (s : State) :
    Call (List Byte × AddressType × List Byte) :=
  (issueAll (text.map .a2s) s).andThen fun symbols s =>
  (findPre symbols candidates s).andThen fun pre s =>
    if symbols.length < 8 then ⟨.error .noMeaning, s⟩
    else
      (issueAll (conversionCommands 3 (symbols.take (symbols.length - 8))) s).andThen fun bytes s =>
        match readPayload bytes with
        | .error e => ⟨.error e, s⟩
        | .ok (hash, t) => ⟨.ok (hash, t, pre), s⟩

/-- `decode(address, candidatePrefixes)` (R132 to R138): steps 1 to 3, then the data part with the explicit prefix alone or with
the ordered candidates. -/
def decodeAddress (address : List Byte) (candidates : List (List Byte)) (s : State) :
    Call (List Byte × AddressType × List Byte) :=
  if !singleCase address then ⟨.error .mixedCase, s⟩
  else
    match splitColon (address.map foldCase) with
    | [text] => decodeData candidates text s
    | [pre, text] => decodeData [pre] text s
    | _ => ⟨.error .invalidFormat, s⟩

end Sys2Proof.Machine
end

