-- ==== Sys2Proof/Safety.lean ====
section
/-! DEFINITION. What a safe run is, in the terms the claims use: the invariant of the block (R25), a run in which no fault was
recorded (R175, U14), and the rules a host must keep (R173, R177, R178, R179) as a check over the commands of a run and their responses. -/

namespace Sys2Proof.Machine

/-- The invariant of the machine: the regrouper registers fit their counts (R25). -/
def State.Inv (s : State) : Prop := regrouperOk s = true

/-- Two states agree on the six registers of the block (R20). -/
def SameRegisters (s t : State) : Prop :=
  s.chk = t.chk ∧ s.acc = t.acc ∧ s.bits = t.bits ∧ s.dir = t.dir ∧ s.strict = t.strict ∧ s.err = t.err

/-- The unit of a command: the high nibble of its opcode, 0 system, 1 ALPHA, 2 REGRP, 3 POLY (R62). -/
def unitOf (i : Instr) : BitVec 4 := i.op.extractLsb' 4 4

/-- The data items of a run's responses in order, or its first fault (R90). -/
def dataOf : List Response → Except FaultKind (List Byte)
  | [] => .ok []
  | r :: rs =>
    match responseData r with
    | .error k => .error k
    | .ok d =>
      match dataOf rs with
      | .error k => .error k
      | .ok ds => .ok (d ++ ds)

/-- A network prefix as far as a call depends on it: no uppercase letter and no separator. R129 speaks of a short lowercase ASCII
string; that the empty prefix and every other code is let in is log entry 11 (U8). -/
def plainPre (p : List Byte) : Bool := p.all fun c => !isUpper c && c != 0x3A

/-- A response that is no fault (R56). -/
def Response.isOk : Response → Bool
  | .error _ => false
  | _ => true

/-- No fault recorded: the premise a claim about a call takes (R173 (c), U14). -/
def noFaultRecorded (s : State) : Bool := s.err == 0

/-- Where a host stands in its use of a unit. -/
inductive UnitPhase where
  /-- nothing begun: the unit must be initialised first (R173) -/
  | closed
  /-- begun, input or the final read still to come (R177) -/
  | running
  /-- a checksum that has been read: any `CGET` or `RDST` since its last input may have been its last one, so it may be left, and by
  R106 it may be continued. DESIGN CHOICE (log entry 13): R177 does not say how the last one is known -/
  | read
  /-- a fault ended it: only a new initialisation may follow (R178) -/
  | failed
  deriving DecidableEq, Repr

/-- The host's standing in the two units that hold state between commands. -/
structure Watch where
  conversion : UnitPhase
  checksum   : UnitPhase
  deriving DecidableEq, Repr

/-- Before the first call. -/
def Watch.start : Watch := ⟨.closed, .closed⟩

/-- What feeding a unit leads to: it must be running, and a fault ends it (R173, R178). -/
def UnitPhase.fed (p : UnitPhase) (r : Response) : Option UnitPhase :=
  if p = .running ∨ p = .read then some (if r.isOk then .running else .failed) else none

/-- What beginning anew leads to: not while a call of the unit is running (R177). -/
def UnitPhase.begun (p : UnitPhase) : Option UnitPhase :=
  if p = .running then none else some .running

/-- One command and its response: the new standing, or none where the host breaks a rule. `RFLUSH` ends a conversion (R179) and may be
repeated (R49); a read of the checksum may come at any time (R177, R180), and input may follow it (R106).

DESIGN CHOICE (log entry 13), where the spec does not say. Which `CGET` or `RDST` is the checksum's last (R177): any single `CGET`,
and any `RDST`, be it issued only for `ERR` or `BITS`, counts as a possible last one, so a `CINIT` after it is accepted, and input
after it makes the checksum running again. `RINIT` or `CINIT` while a call of its unit is running is a break, also where it would
repeat the one just issued (R49). `SRST` is accepted while a conversion or a checksum is running, and ends
both without a break of R177 or R179, although `RINIT` or `CINIT` at the same place is a break. After `SRST` each unit must be begun
again: R173 lets `SRST` stand for its (c) and calls the order of (a), (b), (c) free, but `SRST` also resets `DIR` and `STRICT` (R117), so
`RINIT; CINIT; SRST` and then `RPUSH` or `CSYM` is taken for a break. `RFLUSH` is accepted before any
`RINIT`. A fault of `A2S` (R178, second sentence) restricts no later command. -/
def Watch.next (w : Watch) (i : Instr) (r : Response) : Option Watch :=
  match i with
  | .rinit _ => w.conversion.begun.map fun p => { w with conversion := p }
  | .rpush _ => (w.conversion.fed r).map fun p => { w with conversion := p }
  | .rflush =>
    if w.conversion = .failed then none
    else some { w with conversion := if r.isOk then .closed else .failed }
  | .cinit => w.checksum.begun.map fun p => { w with checksum := p }
  | .csym _ => (w.checksum.fed r).map fun p => { w with checksum := p }
  | .cpfx _ => (w.checksum.fed r).map fun p => { w with checksum := p }
  | .cget _ => some { w with checksum := if w.checksum = .running then .read else w.checksum }
  | .rdst => some { w with checksum := if w.checksum = .running then .read else w.checksum }
  | .srst => some .start
  | .eclr _ => some w
  | .a2s _ => some w
  | .s2a _ => some w

/-- A run's commands with their responses keep the host's rules from a standing on, and no conversion is left open (R179).
DESIGN CHOICE (log entry 13): a checksum may be left open, as R174 allows and no rule forbids. -/
def disciplined : Watch → List (Instr × Response) → Bool
  | w, [] => w.conversion != .running
  | w, (i, r) :: rest =>
    match w.next i r with
    | some w' => disciplined w' rest
    | none => false

end Sys2Proof.Machine
end

