-- ==== Sys2Proof/Certificates/Slice0/Obligations.lean ====
section
/-! DEFINITION. The statements for the provers. Words and arithmetic are written out from the spec's rules, and not through the
definitions the meanings use, wherever a rule gives a formula. -/

open Sys2Proof Sys2Proof.Machine

/-! ## Encoding and decoding -/

/-- R55, R57, R59, R62: for every command, with its operand at every value the encoding admits, the encoded word decodes to that command. -/
def Obligations.EncodedCommandDecodesToItself : Prop :=
  ∀ i : Instr, decode (encode i) = .ok i

/-- R59, R60: a word that decodes to a command is the word that command encodes to; no bit of a legal word is ignored by the decoder. -/
def Obligations.DecodedWordEncodesToItself : Prop :=
  ∀ (w : CmdWord) (i : Instr), decode w = .ok i → encode i = w

/-- R59, R62: a word decodes to a command with a mnemonic exactly when the row of the opcode map with that mnemonic accepts it by mask and match, and no two rows accept one word. -/
def Obligations.DecoderAgreesWithMaskAndMatch : Prop :=
  (∀ (w : CmdWord) (i : Instr), decode w = .ok i → ∃ r ∈ opcodeTable, r.mnemonic = i.mnemonic ∧ (w &&& r.mask) = r.value) ∧
  (∀ (w : CmdWord) (r : OpcodeRow), r ∈ opcodeTable → (w &&& r.mask) = r.value →
    ∃ i, decode w = .ok i ∧ i.mnemonic = r.mnemonic) ∧
  (∀ (w : CmdWord) (r q : OpcodeRow), r ∈ opcodeTable → q ∈ opcodeTable →
    (w &&& r.mask) = r.value → (w &&& q.mask) = q.value → r = q)

/-- R59: the number of 16-bit words that decode to a command is 1312. -/
def Obligations.LegalWordsNumber1312 : Prop :=
  ((List.range 65536).filter fun n => (decodeTableWord 16 n).isSome).length = 1312

/-- R60: for every assigned opcode and every arg outside the form's legal values the word does not decode, and issued as a command word it raises IllegalCommand: the sticky flag 3, the response 0xF0000000, nothing else. -/
def Obligations.ReservedBitsMakeTheWordIllegal : Prop :=
  ∀ (op arg : Byte) (f : Form), formOfOp op = some f →
    (f = .Z ∧ arg ≠ 0 ∨ f = .M ∧ arg.extractLsb' 2 6 ≠ 0 ∨ f = .K ∧ arg.extractLsb' 3 5 ≠ 0 ∨ f = .F ∧ arg.extractLsb' 4 4 ≠ 0) →
    decode (cmdWord op arg) = .error (.reservedOperandBits op arg) ∧
    ∀ (s : State) (rest : List HostEvent), s.pending = .command (cmdWord op arg) :: rest →
      step s = .next { s with pending := rest, err := s.err ||| 0b1000, responses := s.responses ++ [0xF0000000] }

/-- R61: a word that decodes to no command, issued in any state, sets ERR[3], changes no other register and returns 0xF0000000; the 244 unassigned opcodes with any arg are such words, and so are assigned opcodes with reserved arg bits set, 0x0000 and 0xFFFF; every other word decodes to exactly one command. -/
def Obligations.IllegalWordRaisesIllegalCommand : Prop :=
  (∀ (w : CmdWord) (s : State) (rest : List HostEvent), (∀ i, decode w ≠ .ok i) → s.pending = .command w :: rest →
    step s = .next { s with pending := rest, err := s.err ||| 0b1000, responses := s.responses ++ [0xF0000000] }) ∧
  (∀ op arg : Byte,
    (op.toNat = 0x00 ∨ 0x04 ≤ op.toNat ∧ op.toNat ≤ 0x0F ∨ 0x12 ≤ op.toNat ∧ op.toNat ≤ 0x1F ∨
      0x23 ≤ op.toNat ∧ op.toNat ≤ 0x2F ∨ 0x34 ≤ op.toNat) →
    ∀ i, decode (cmdWord op arg) ≠ .ok i) ∧
  (∀ (op arg : Byte) (f : Form), formOfOp op = some f → f.legalArg arg = false → ∀ i, decode (cmdWord op arg) ≠ .ok i) ∧
  (∀ (op arg : Byte) (f : Form), formOfOp op = some f → f.legalArg arg = true →
    ∃ i, decode (cmdWord op arg) = .ok i ∧ ∀ j, decode (cmdWord op arg) = .ok j → j = i) ∧
  ((List.range 256).filter fun n => (formOfOp (BitVec.ofNat 8 n)).isNone).length = 244 ∧
  (∀ i, decode 0x0000 ≠ .ok i) ∧ (∀ i, decode 0xFFFF ≠ .ok i)

/-- Sanity: one word of each family, written out in the spec's examples, decodes to its command. -/
def Obligations.WordsOfTheSpecDecode : Prop :=
  decode 0x0100 = .ok .rdst ∧ decode 0x0204 = .ok (.eclr 4) ∧ decode 0x1071 = .ok (.a2s 0x71) ∧
  decode 0x110F = .ok (.s2a 15) ∧ decode 0x2003 = .ok (.rinit 3) ∧ decode 0x21FF = .ok (.rpush 0xFF) ∧
  decode 0x311F = .ok (.csym 31) ∧ decode 0x3262 = .ok (.cpfx 0x62) ∧ decode 0x3307 = .ok (.cget 7)

/-- R66: CSEP is 0x3100; CPAD8 is 0x3100 eight times; CPFXS p is 0x3200 with each character code of p in order; R8TO5 is 0x2000; R5TO8S is 0x2003; CGET8 is 0x3300 to 0x3307. -/
def Obligations.PseudoCommandsExpandToTheirWords : Prop :=
  (expand .csep).map encode = [0x3100] ∧
  (expand .cpad8).map encode = List.replicate 8 0x3100 ∧
  (∀ p : List Byte, (expand (.cpfxs p)).map encode = p.map fun c => 0x3200 ||| c.setWidth 16) ∧
  (expand .r8to5).map encode = [0x2000] ∧
  (expand .r5to8s).map encode = [0x2003] ∧
  (expand .cget8).map encode = [0x3300, 0x3301, 0x3302, 0x3303, 0x3304, 0x3305, 0x3306, 0x3307]

/-! ## The step -/

/-- R14, R51, R59: when the host's next event is a word that decodes to a command, the step takes it off the port and is exec of that command in the state so reached; withFetchWord presents the word of a command so. (That the port is a list is the model's choice, log entry 1.) -/
def Obligations.StepRunsTheDecodedCommand : Prop :=
  (∀ (s : State) (w : CmdWord) (rest : List HostEvent) (i : Instr), s.pending = .command w :: rest → decode w = .ok i →
    step s = exec i { s with pending := rest }) ∧
  (∀ (s : State) (i : Instr), step (s.withFetchWord 16 (encode i).toNat) = exec i s)

/-- R170: when the host's next event is reset, the step leaves CHK = 1, ACC = 0, BITS = 0, DIR = 0, STRICT = 0, ERR = 0, in one step between two commands and with no response word, from every state; ALPHA31 is no register (R32) and stays. -/
def Obligations.HardResetIsAStepOfItsOwn : Prop :=
  ∀ (s : State) (rest : List HostEvent), s.pending = .reset :: rest →
    step s = .next { chk := 1, acc := 0, bits := 0, dir := false, strict := false, err := 0,
                     pending := rest, responses := s.responses, config := s.config }

/-- R167, R172: while the host issues nothing the block waits and holds its six registers. That this is a step which answers the same state is the model's choice, log entry 3. -/
def Obligations.NothingPendingHoldsTheState : Prop :=
  ∀ s : State, s.pending = [] → step s = .next s

/-- R35: after hardware reset and after SRST, CHK = 1, ACC = 0, BITS = 0, DIR = 0, STRICT = 0, ERR = 0, so Z = 1 and STATUS = 0x0020; the model's reset state has these values. -/
def Obligations.ResetLeavesTheStatedValues : Prop :=
  (State.reset.chk = 1 ∧ State.reset.acc = 0 ∧ State.reset.bits = 0 ∧ State.reset.dir = false ∧
    State.reset.strict = false ∧ State.reset.err = 0) ∧
  (∀ (s : State) (rest : List HostEvent), s.pending = .reset :: rest →
    ∃ t, step s = .next t ∧ SameRegisters t State.reset ∧ zFlag t = true ∧ status t = 0x0020) ∧
  (∀ s : State, regrouperOk s = true →
    ∃ t, exec .srst s = .next t ∧ SameRegisters t State.reset ∧ zFlag t = true ∧ status t = 0x0020)

/-- R25: BITS <= to - 1 and ACC < 2^BITS hold in the reset state, in the rule's own terms and as the model's check. -/
def Obligations.ResetMeetsTheInvariant : Prop :=
  State.reset.Inv ∧
  ∀ s : State, s.Inv ↔ (s.bits.toNat ≤ (if s.dir then 8 else 5) - 1 ∧ s.acc.toNat < 2 ^ s.bits.toNat)

/-- R25: from every state with BITS <= to - 1 and ACC < 2^BITS (to = 5 when DIR = 0, 8 when DIR = 1), whatever the host's next event, the next state has the same property. -/
def Obligations.EveryStepKeepsTheInvariant : Prop :=
  ∀ s t : State, s.Inv → step s = .next t → t.Inv

/-- R14, R51, R61, R181: from every state that meets the regrouper invariant a step answers a next state that meets it; a command word, whichever of the 65536 it is, is taken off the port and one response word follows all earlier ones; reset returns none; the block's ALPHA31 stays (R32). -/
def Obligations.EveryEventCompletesWithOneResponse : Prop :=
  ∀ s : State, s.Inv → ∃ t, step s = .next t ∧ t.Inv ∧ t.config = s.config ∧
    (∀ w rest, s.pending = .command w :: rest → t.pending = rest ∧ ∃ r, t.responses = s.responses ++ [r]) ∧
    (∀ rest, s.pending = .reset :: rest → t.pending = rest ∧ t.responses = s.responses)

/-- U19, R25: in a state with BITS above to - 1 or ACC at or above 2^BITS the spec gives the commands no meaning; the model refuses each of the twelve by name and computes no result. That all twelve are refused is log entry 5. -/
def Obligations.BrokenRegrouperStateIsRefused : Prop :=
  ∀ (i : Instr) (s : State), ¬ (s.bits.toNat ≤ (if s.dir then 8 else 5) - 1 ∧ s.acc.toNat < 2 ^ s.bits.toNat) →
    exec i s = .refused .regrouperInvariantBroken

/-- R14, R51: with the words of a list of commands first on the port, as many steps as there are commands leave what executing the commands one after another leaves. -/
def Obligations.StepsRunTheProgram : Prop :=
  ∀ (is : List Instr) (s : State),
    core.run is.length { s with pending := (is.map fun i => HostEvent.command (encode i)) ++ s.pending } = runCommands is s

/-! ## Rules of the whole machine -/

/-- R37: CHK changes only in SRST, CINIT, CSYM, CPFX; ACC and BITS only in SRST, RINIT, RPUSH, RFLUSH; DIR and STRICT only in SRST, RINIT; ERR only in SRST, ECLR and, by gaining one fault flag, in A2S, S2A, RPUSH, RFLUSH, CSYM; earlier responses and the host's later events are untouched, and one response is added; the alphabet's ALPHA31 is written by no command (R32). -/
def Obligations.RegisterUseOfEveryCommand : Prop :=
  ∀ (i : Instr) (s t : State), exec i s = .next t →
    (i ≠ .srst → i ≠ .cinit → (∀ v, i ≠ .csym v) → (∀ c, i ≠ .cpfx c) → t.chk = s.chk) ∧
    (i ≠ .srst → (∀ m, i ≠ .rinit m) → (∀ v, i ≠ .rpush v) → i ≠ .rflush → t.acc = s.acc ∧ t.bits = s.bits) ∧
    (i ≠ .srst → (∀ m, i ≠ .rinit m) → t.dir = s.dir ∧ t.strict = s.strict) ∧
    (i ≠ .srst → (∀ f, i ≠ .eclr f) → (∀ c, i ≠ .a2s c) → (∀ v, i ≠ .s2a v) → (∀ v, i ≠ .rpush v) → i ≠ .rflush →
      (∀ v, i ≠ .csym v) → t.err = s.err) ∧
    (i ≠ .srst → (∀ f, i ≠ .eclr f) → t.err = s.err ∨ ∃ k, t.err = s.err ||| faultFlag k) ∧
    t.config = s.config ∧ t.pending = s.pending ∧ ∃ r, t.responses = s.responses ++ [r]

/-- R152: whenever the response to a command word has a non-zero error code, there is one fault kind whose code it is: the word is err << 28, ERR gains the flag of that kind, every other register is as before, and the block still accepts the next command (the invariant is kept). -/
def Obligations.FaultChangesOnlyItsFlag : Prop :=
  ∀ (w : CmdWord) (s t : State) (r : RspWord), runWord w s = .next t → t.responses = s.responses ++ [r] →
    r.extractLsb' 28 4 ≠ 0 →
    (∃ p : BitVec 4 × BitVec 4, p ∈ [(1, 0b0001), (2, 0b0010), (3, 0b0100), (15, 0b1000)] ∧
      r = p.1.setWidth 32 <<< 28 ∧
      t = { s with err := s.err ||| p.2, responses := s.responses ++ [p.1.setWidth 32 <<< 28] }) ∧
    (s.Inv → t.Inv)

/-- R56, U11: the response to any word has bits 25:16 zero, n at most 2, an error code among 0, 1, 2, 3 and 15, no data when it is an error, d1 = 0 unless n = 2, d0 = 0 when n = 0; and the host's reading of it succeeds. -/
def Obligations.EveryResponseWordIsInForm : Prop :=
  ∀ (w : CmdWord) (s t : State), runWord w s = .next t → ∃ r : RspWord, t.responses = s.responses ++ [r] ∧
    r.extractLsb' 16 10 = 0 ∧ r.extractLsb' 26 2 ≠ 3 ∧
    (r.extractLsb' 28 4 = 0 ∨ r.extractLsb' 28 4 = 1 ∨ r.extractLsb' 28 4 = 2 ∨ r.extractLsb' 28 4 = 3 ∨ r.extractLsb' 28 4 = 15) ∧
    (r.extractLsb' 28 4 ≠ 0 → r.extractLsb' 26 2 = 0 ∧ r.extractLsb' 0 16 = 0) ∧
    (r.extractLsb' 26 2 ≠ 2 → r.extractLsb' 8 8 = 0) ∧ (r.extractLsb' 26 2 = 0 → r.extractLsb' 0 8 = 0) ∧
    ∃ c, responseOfWord r = some c ∧ responseWord c = r

/-- R64: a response without error has n = 2 for RDST, 0 for ECLR, SRST, RINIT, CINIT, CSYM and CPFX, 1 for A2S, S2A and CGET, 0, 1 or 2 for RPUSH, 0 or 1 for RFLUSH; the symbols A2S and CGET return are below 32. -/
def Obligations.ResponseShapeOfEveryCommand : Prop :=
  ∀ (i : Instr) (s t : State) (r : RspWord), exec i s = .next t → t.responses = s.responses ++ [r] → r.extractLsb' 28 4 = 0 →
    match i with
    | .rdst => r.extractLsb' 26 2 = 2
    | .eclr _ => r = 0
    | .srst => r = 0
    | .a2s _ => r.extractLsb' 26 2 = 1 ∧ r.extractLsb' 5 3 = 0
    | .s2a _ => r.extractLsb' 26 2 = 1
    | .rinit _ => r = 0
    | .rpush _ => r.extractLsb' 26 2 = 0 ∨ r.extractLsb' 26 2 = 1 ∨ r.extractLsb' 26 2 = 2
    | .rflush => r.extractLsb' 26 2 = 0 ∨ r.extractLsb' 26 2 = 1
    | .cinit => r = 0
    | .csym _ => r = 0
    | .cpfx _ => r = 0
    | .cget _ => r.extractLsb' 26 2 = 1 ∧ r.extractLsb' 5 3 = 0

/-- R28: for every command but RDST, running it with any other value in ERR gives the same response and the same registers but ERR; a set flag never blocks or alters a command. -/
def Obligations.StickyFlagsChangeNoOtherResult : Prop :=
  ∀ (i : Instr) (s t : State) (e : BitVec 4), i ≠ .rdst → exec i s = .next t →
    ∃ t', exec i { s with err := e } = .next t' ∧ t'.responses = t.responses ∧ t'.chk = t.chk ∧ t'.acc = t.acc ∧
      t'.bits = t.bits ∧ t'.dir = t.dir ∧ t'.strict = t.strict

/-- R28: if a flag of ERR is set before a step and clear after it, the host's event was reset, the word of SRST, or the word of an ECLR with that bit in its mask. -/
def Obligations.OnlyClearingCommandsClearAFlag : Prop :=
  ∀ (s t : State) (b : Nat), step s = .next t → s.err.getLsbD b = true → t.err.getLsbD b = false →
    ∃ rest, s.pending = .reset :: rest ∨ s.pending = .command (encode .srst) :: rest ∨
      ∃ f : BitVec 4, f.getLsbD b = true ∧ s.pending = .command (encode (.eclr f)) :: rest

/-- R37, R177: two commands of different units among ALPHA, REGRP and POLY, run in either order from one state, leave the same registers, and each returns the same response in both orders. -/
def Obligations.CommandsOfDifferentUnitsCommute : Prop :=
  ∀ (i j : Instr) (s s₁ t : State), unitOf i ≠ 0 → unitOf j ≠ 0 → unitOf i ≠ unitOf j →
    exec i s = .next s₁ → exec j s₁ = .next t →
    ∃ s₂ t' ri rj, exec j s = .next s₂ ∧ exec i s₂ = .next t' ∧ SameRegisters t t' ∧
      t.responses = s.responses ++ [ri, rj] ∧ t'.responses = s.responses ++ [rj, ri]

/-- R49: RDST, A2S, S2A and CGET leave the registers alone when they do not fault; RINIT, CINIT, SRST and ECLR done twice leave what once leaves; a successful RFLUSH repeated succeeds, emits nothing and changes nothing more. -/
def Obligations.RepeatableCommandsRepeat : Prop :=
  (∀ (i : Instr) (s t : State) (r : RspWord), (i = .rdst ∨ (∃ c, i = .a2s c) ∨ (∃ v, i = .s2a v) ∨ ∃ k, i = .cget k) →
    exec i s = .next t → t.responses = s.responses ++ [r] → r.extractLsb' 28 4 = 0 → SameRegisters t s) ∧
  (∀ (i : Instr) (s t : State), ((∃ m, i = .rinit m) ∨ i = .cinit ∨ i = .srst ∨ ∃ f, i = .eclr f) → exec i s = .next t →
    ∃ u, exec i t = .next u ∧ SameRegisters u t ∧ u.responses = t.responses ++ [0]) ∧
  (∀ (s t : State) (r : RspWord), exec .rflush s = .next t → t.responses = s.responses ++ [r] → r.extractLsb' 28 4 = 0 →
    ∃ u, exec .rflush t = .next u ∧ SameRegisters u t ∧ u.responses = t.responses ++ [0])

/-- R117: from any two states of blocks with the same ALPHA31 that meet the regrouper invariant, SRST followed by any commands completes and returns the same responses and leaves the same registers. -/
def Obligations.SoftResetForgetsTheStartState : Prop :=
  ∀ (is : List Instr) (s s' : State), regrouperOk s = true → regrouperOk s' = true → s.config = s'.config →
    ∃ t t' rs, runCommands (.srst :: is) s = .next t ∧ runCommands (.srst :: is) s' = .next t' ∧
      t.responses = s.responses ++ rs ∧ t'.responses = s'.responses ++ rs ∧ SameRegisters t t'

/-! ## System commands -/

/-- R115: word 0x0100; the response is 0x08000000 | STATUS with STATUS bit 0 DIR, 1 STRICT, 4:2 BITS, 5 Z (CHK == 1), 11:8 ERR and the rest 0, so d0 is its low and d1 its high byte; no register changes, ERR in particular. -/
def Obligations.RdstReturnsStatus : Prop :=
  decode 0x0100 = .ok .rdst ∧
  ∀ s : State, regrouperOk s = true →
    exec .rdst s = .next { s with responses := s.responses ++ [BitVec.ofNat 32 (0x08000000 + s.dir.toNat + 2 * s.strict.toNat +
      4 * s.bits.toNat + 32 * (if s.chk = 1 then 1 else 0) + 256 * s.err.toNat)] }

/-- R116: words 0x0200 to 0x020F; ERR <- ERR & ~f, response 0x00000000, no other register; ECLR 0 changes nothing and ECLR 0xF clears all; words 0x0210 to 0x02FF are illegal, set E_ILL and clear nothing. -/
def Obligations.EclrClearsTheChosenFlags : Prop :=
  (∀ f : BitVec 4, decode (0x0200 ||| f.setWidth 16) = .ok (.eclr f)) ∧
  (∀ (f : BitVec 4) (s : State), regrouperOk s = true →
    exec (.eclr f) s = .next { s with err := s.err &&& ~~~f, responses := s.responses ++ [0x00000000] }) ∧
  (∀ e : BitVec 4, e &&& ~~~(0 : BitVec 4) = e ∧ e &&& ~~~(0xF : BitVec 4) = 0) ∧
  (∀ (a : Byte) (s : State), 0x10 ≤ a.toNat →
    runWord (cmdWord 0x02 a) s = .next { s with err := s.err ||| 0b1000, responses := s.responses ++ [0xF0000000] })

/-- R117, R171: word 0x0300; all six registers take their reset values and the response is 0x00000000; hardware reset leaves the same registers and returns no response; CINIT, RINIT 0 and ECLR 0xF in a row leave the same registers. -/
def Obligations.SrstGivesTheResetState : Prop :=
  decode 0x0300 = .ok .srst ∧
  ∀ s : State, regrouperOk s = true →
    exec .srst s = .next { chk := 1, acc := 0, bits := 0, dir := false, strict := false, err := 0,
                           pending := s.pending, responses := s.responses ++ [0x00000000], config := s.config } ∧
    (∃ t, hardReset s = .next t ∧ t.responses = s.responses ∧
      SameRegisters t { s with chk := 1, acc := 0, bits := 0, dir := false, strict := false, err := 0 }) ∧
    (∃ t, runCommands [.cinit, .rinit 0, .eclr 0xF] s = .next t ∧
      SameRegisters t { s with chk := 1, acc := 0, bits := 0, dir := false, strict := false, err := 0 })

/-! ## Alphabet commands -/

/-- R77: word 0x1000 | c; with c folded (A to Z plus 0x20), if the code is that of a symbol i the response is 0x04000000 | i and no register changes; if it is the code of no symbol E_ICHAR is set, the response is 0x10000000 and nothing else changes; the symbol is unique, and no code at or above 0x80 has one. For every block whose ALPHA31 is as U3 asks: below 0x80 and, after case folding, none of the other 31 codes; the default l is one. -/
def Obligations.A2sLooksTheFoldedCodeUp : Prop :=
  (∀ c : Byte, decode (0x1000 ||| c.setWidth 16) = .ok (.a2s c)) ∧
  (∀ (c c' : Byte) (s : State), regrouperOk s = true →
    s.config.alpha31.toNat < 0x80 → foldCase s.config.alpha31 ∉ alphaPrinted →
    c' = (if 0x41 ≤ c.toNat ∧ c.toNat ≤ 0x5A then c + 0x20 else c) →
    (∀ i : Symbol, alphaOf s.config i = c' →
      exec (.a2s c) s = .next { s with responses := s.responses ++ [0x04000000 ||| i.setWidth 32] }) ∧
    ((∀ i : Symbol, alphaOf s.config i ≠ c') →
      exec (.a2s c) s = .next { s with err := s.err ||| 0b0001, responses := s.responses ++ [0x10000000] })) ∧
  (∀ cfg : Config, cfg.alpha31.toNat < 0x80 → foldCase cfg.alpha31 ∉ alphaPrinted →
    (∀ i j : Symbol, alphaOf cfg i = alphaOf cfg j → i = j) ∧
    (∀ c : Byte, 0x80 ≤ c.toNat → ∀ i : Symbol, alphaOf cfg i ≠ c))

/-- R77, for every ALPHA31 legal by log entry 7 (DEDUCED) and from every state that meets the regrouper invariant: A2S answers with error code 0 for 55 of the 256 operand values and with InvalidCharacter, 0x10000000, for the other 201, where ALPHA31 is a lowercase letter, the default l (log entry 6, PRESUMED) among them; where ALPHA31 has no uppercase form the numbers are 54 and 202, which is an inference and no number of the spec. A2S of ALPHA31, and of its uppercase form if it is a letter, answers symbol 31; where ALPHA31 is not l, A2S of l and of L raises InvalidCharacter. -/
def Obligations.A2sAcceptsFiftyFiveCodes : Prop :=
  ∀ (s : State) (count : Nat), regrouperOk s = true → legalConfig s.config = true →
    count = (if 0x61 ≤ s.config.alpha31.toNat ∧ s.config.alpha31.toNat ≤ 0x7A then 55 else 54) →
    ((List.range 256).filter fun n =>
      match exec (.a2s (BitVec.ofNat 8 n)) s with
      | .next t => (t.responses.getLast?.map fun r => r.extractLsb' 28 4) == some 0
      | _ => false).length = count ∧
    ((List.range 256).filter fun n =>
      match exec (.a2s (BitVec.ofNat 8 n)) s with
      | .next t => t.responses.getLast? == some 0x10000000
      | _ => false).length = 256 - count ∧
    exec (.a2s s.config.alpha31) s = .next { s with responses := s.responses ++ [0x0400001F] } ∧
    (count = 55 → exec (.a2s (s.config.alpha31 - 0x20)) s = .next { s with responses := s.responses ++ [0x0400001F] }) ∧
    (s.config.alpha31 ≠ 0x6C → ∀ c : Byte, c = 0x6C ∨ c = 0x4C →
      exec (.a2s c) s = .next { s with err := s.err ||| 0b0001, responses := s.responses ++ [0x10000000] })

/-- R78: word 0x1100 | s; for s up to 31 the response is 0x04000000 | ALPHA[s], with ALPHA the 31 codes of the alphabet string and the block's ALPHA31, whichever it is, and no register changes; above 31 E_IARG is set, the response is 0x20000000 and nothing else changes; the result is never an uppercase code, where ALPHA31 is none. -/
def Obligations.S2aReturnsTheCodeOfTheSymbol : Prop :=
  (∀ v : Byte, decode (0x1100 ||| v.setWidth 16) = .ok (.s2a v)) ∧
  (∀ (v a : Byte) (s : State), regrouperOk s = true → v.toNat ≤ 31 →
    (([0x71, 0x70, 0x7A, 0x72, 0x79, 0x39, 0x78, 0x38, 0x67, 0x66, 0x32, 0x74, 0x76, 0x64, 0x77, 0x30] ++
      [0x73, 0x33, 0x6A, 0x6E, 0x35, 0x34, 0x6B, 0x68, 0x63, 0x65, 0x36, 0x6D, 0x75, 0x61, 0x37, s.config.alpha31] :
        List Byte)[v.toNat]? = some a) →
    exec (.s2a v) s = .next { s with responses := s.responses ++ [0x04000000 ||| a.setWidth 32] } ∧
    (¬ (0x41 ≤ s.config.alpha31.toNat ∧ s.config.alpha31.toNat ≤ 0x5A) → ¬ (0x41 ≤ a.toNat ∧ a.toNat ≤ 0x5A))) ∧
  (∀ (v : Byte) (s : State), regrouperOk s = true → 31 < v.toNat →
    exec (.s2a v) s = .next { s with err := s.err ||| 0b0010, responses := s.responses ++ [0x20000000] })

/-- R79: for every choice of ALPHA31 that U3 and D8 allow and that the case fold leaves alone (this last condition is the model's reading of R77 and R78, log entry 7, DEDUCED; without it the law fails for an uppercase code): looking the code of a symbol up gives the symbol back; the symbol found for a code has the case-folded code as its own; and through the commands of a block with such an ALPHA31, S2A then A2S of its answer returns the symbol, and A2S, where it succeeds, then S2A of its answer returns the case-folded code, all four leaving the registers alone. No register is read: from any two states that meet the regrouper invariant, of blocks with the same ALPHA31, whichever it is, either command returns the same response. -/
def Obligations.AlphabetLookupsAreInverse : Prop :=
  (∀ (cfg : Config) (i : Symbol), legalConfig cfg = true → symbolOf cfg (alphaOf cfg i) = some i) ∧
  (∀ (cfg : Config) (c : Byte) (i : Symbol), symbolOf cfg c = some i → alphaOf cfg i = foldCase c) ∧
  (∀ (i : Symbol) (s : State), regrouperOk s = true → legalConfig s.config = true →
    ∃ a t u, exec (.s2a (i.setWidth 8)) s = .next t ∧ t.responses = s.responses ++ [0x04000000 ||| a.setWidth 32] ∧
      exec (.a2s a) t = .next u ∧ u.responses = t.responses ++ [0x04000000 ||| i.setWidth 32] ∧
      SameRegisters t s ∧ SameRegisters u s) ∧
  (∀ (c : Byte) (i : Symbol) (s t : State), regrouperOk s = true → legalConfig s.config = true →
    exec (.a2s c) s = .next t → t.responses = s.responses ++ [0x04000000 ||| i.setWidth 32] →
    ∃ u, exec (.s2a (i.setWidth 8)) t = .next u ∧ u.responses = t.responses ++ [0x04000000 ||| (foldCase c).setWidth 32] ∧
      SameRegisters t s ∧ SameRegisters u s) ∧
  (∀ (i : Instr) (s s' : State), ((∃ c, i = .a2s c) ∨ ∃ v, i = .s2a v) → regrouperOk s = true → regrouperOk s' = true →
    s.config = s'.config → ∃ t t' r, exec i s = .next t ∧ exec i s' = .next t' ∧
      t.responses = s.responses ++ [r] ∧ t'.responses = s'.responses ++ [r])

/-! ## Regrouper commands -/

/-- R87: words 0x2000 to 0x2003; DIR is bit 0 and STRICT bit 1 of the operand, ACC and BITS become 0, the response is 0x00000000; leftover bits are dropped, CHK and ERR stay; words with arg[7:2] not 0 are illegal. -/
def Obligations.RinitStartsAConversion : Prop :=
  (∀ m : BitVec 2, decode (0x2000 ||| m.setWidth 16) = .ok (.rinit m)) ∧
  (∀ a : Byte, 3 < a.toNat → ∀ i, decode (cmdWord 0x20 a) ≠ .ok i) ∧
  (∀ (m : BitVec 2) (s : State), regrouperOk s = true →
    exec (.rinit m) s = .next { s with dir := decide (m.toNat % 2 = 1), strict := decide (m.toNat / 2 = 1), acc := 0, bits := 0,
                                       responses := s.responses ++ [0x00000000] })

/-- R88: word 0x2100 | v; with from and to of DIR, a = ACC * 2^from + v and b = BITS + from, b / to values (0, 1 or 2) are cut from the top of the b bits of a, first in d0, second in d1; ACC keeps a mod 2^(b mod to) and BITS is b mod to; no other register changes. A value of 2^from or more (only for DIR = 1) sets E_IARG, returns 0x20000000 and changes nothing else. -/
def Obligations.RpushCutsTheBitStringFromTheFront : Prop :=
  (∀ v : Byte, decode (0x2100 ||| v.setWidth 16) = .ok (.rpush v)) ∧
  ∀ (v : Byte) (s : State) (inW outW a b : Nat), regrouperOk s = true →
    inW = (if s.dir then 5 else 8) → outW = (if s.dir then 8 else 5) →
    a = s.acc.toNat * 2 ^ inW + v.toNat → b = s.bits.toNat + inW →
    (v.toNat < 2 ^ inW → b / outW ≤ 2 ∧
      exec (.rpush v) s = .next { s with
        acc := BitVec.ofNat 7 (a % 2 ^ (b % outW)), bits := BitVec.ofNat 3 (b % outW),
        responses := s.responses ++ [BitVec.ofNat 32 (b / outW * 2 ^ 26 +
          (if 1 ≤ b / outW then a / 2 ^ (b - outW) % 2 ^ outW else 0) +
          (if 2 ≤ b / outW then 2 ^ 8 * (a / 2 ^ (b - 2 * outW) % 2 ^ outW) else 0))] }) ∧
    (2 ^ inW ≤ v.toNat →
      exec (.rpush v) s = .next { s with err := s.err ||| 0b0010, responses := s.responses ++ [0x20000000] })

/-- R89: word 0x2200; lenient: with BITS = 0 nothing is emitted, else the leftover bits shifted left by to - BITS, and the regrouper is emptied; strict: if BITS >= from or ACC is not 0, E_IPAD is set, the response is 0x30000000 and nothing else changes, else nothing is emitted and the regrouper is emptied; the mode and all other registers stay. -/
def Obligations.RflushPadsOrChecks : Prop :=
  decode 0x2200 = .ok .rflush ∧
  ∀ s : State, regrouperOk s = true →
    (s.strict = false → exec .rflush s = .next { s with
      acc := 0, bits := 0,
      responses := s.responses ++ [if s.bits = 0 then 0x00000000
        else BitVec.ofNat 32 (0x04000000 + s.acc.toNat * 2 ^ ((if s.dir then 8 else 5) - s.bits.toNat))] }) ∧
    (s.strict = true → ((if s.dir then 5 else 8) ≤ s.bits.toNat ∨ s.acc ≠ 0) →
      exec .rflush s = .next { s with err := s.err ||| 0b0100, responses := s.responses ++ [0x30000000] }) ∧
    (s.strict = true → ¬ ((if s.dir then 5 else 8) ≤ s.bits.toNat ∨ s.acc ≠ 0) →
      exec .rflush s = .next { s with acc := 0, bits := 0, responses := s.responses ++ [0x00000000] })

/-- R90: from every state that meets the regrouper invariant the commands of a conversion complete, and the data items of their responses in order are exactly convertBits of the values; some command faults exactly when the function fails, and the first fault is the function's error. -/
def Obligations.StreamingEqualsConvertBits : Prop :=
  ∀ (m : BitVec 2) (values : List Byte) (s : State), regrouperOk s = true →
    ∃ t rs, runCommands (conversionCommands m values) s = .next t ∧ t.responses = s.responses ++ rs.map responseWord ∧
      (dataOf rs).map (List.map BitVec.toNat) =
        convertBits (values.map BitVec.toNat) (if m.toNat % 2 = 1 then 5 else 8) (if m.toNat % 2 = 1 then 8 else 5)
          (decide (m.toNat / 2 = 1))

/-- R91: n bytes give ceil(8n/5) symbols when lenient; m symbols give ceil(5m/8) bytes when lenient, and when strict floor(5m/8) bytes, which needs 5m mod 8 < 5. -/
def Obligations.RegroupedLengths : Prop :=
  (∀ values : List Byte, ∃ out, convertBits (values.map BitVec.toNat) 8 5 false = .ok out ∧
    out.length = (8 * values.length + 4) / 5) ∧
  (∀ symbols : List Symbol, ∃ out, convertBits (symbols.map BitVec.toNat) 5 8 false = .ok out ∧
    out.length = (5 * symbols.length + 7) / 8) ∧
  (∀ (symbols : List Symbol) (out : List Nat), convertBits (symbols.map BitVec.toNat) 5 8 true = .ok out →
    out.length = 5 * symbols.length / 8 ∧ 5 * symbols.length % 8 < 5)

/-- R92: for every byte sequence B, convertBits(B, 8, 5, lenient) is some S, and convertBits(S, 5, 8, strict) is B without error. -/
def Obligations.RegroupingRoundTrips : Prop :=
  ∀ values : List Byte, ∃ symbols : List Nat,
    convertBits (values.map BitVec.toNat) 8 5 false = .ok symbols ∧
    convertBits symbols 5 8 true = .ok (values.map BitVec.toNat)

/-! ## Checksum commands -/

/-- R103: word 0x3000; CHK <- 1 so Z becomes 1, response 0x00000000; the regrouper and ERR are untouched. -/
def Obligations.CinitStartsAChecksum : Prop :=
  decode 0x3000 = .ok .cinit ∧
  ∀ s : State, regrouperOk s = true →
    exec .cinit s = .next { s with chk := 0x0000000001, responses := s.responses ++ [0x00000000] } ∧
    zFlag { s with chk := 0x0000000001, responses := s.responses ++ [0x00000000] } = true

/-- R104: word 0x3100 | s; for s up to 31 CHK becomes step(CHK, s), the response is 0x00000000 and no other register changes; above 31 E_IARG is set, the response is 0x20000000 and CHK is unchanged. With CHK = 0xFFFFFFFFFF, CSYM 31 gives 0x5de5995d60. -/
def Obligations.CsymFeedsOneSymbol : Prop :=
  (∀ v : Byte, decode (0x3100 ||| v.setWidth 16) = .ok (.csym v)) ∧
  (∀ (v : Byte) (s : State), regrouperOk s = true → v.toNat ≤ 31 →
    exec (.csym v) s = .next { s with chk := polyStep s.chk (BitVec.ofNat 5 v.toNat),
                                      responses := s.responses ++ [0x00000000] }) ∧
  (∀ (v : Byte) (s : State), regrouperOk s = true → 31 < v.toNat →
    exec (.csym v) s = .next { s with err := s.err ||| 0b0010, responses := s.responses ++ [0x20000000] }) ∧
  polyStep 0xFFFFFFFFFF 31 = 0x5de5995d60

/-- R105: word 0x3200 | c; CHK becomes step(CHK, c & 0x1F), the response is 0x00000000, no other register changes and no code faults; two codes with the same low five bits do the same. -/
def Obligations.CpfxFeedsTheLowFiveBits : Prop :=
  (∀ c : Byte, decode (0x3200 ||| c.setWidth 16) = .ok (.cpfx c)) ∧
  (∀ (c : Byte) (s : State), regrouperOk s = true →
    exec (.cpfx c) s = .next { s with chk := polyStep s.chk ((c &&& 0x1F).setWidth 5),
                                      responses := s.responses ++ [0x00000000] }) ∧
  (∀ (c d : Byte) (s : State), c &&& 0x1F = d &&& 0x1F → exec (.cpfx c) s = exec (.cpfx d) s)

/-- R106: words 0x3300 to 0x3307, arg[7:3] must be 0; the response is 0x04000000 | ((CHK ^ 1) >> 5(7-k)) & 0x1F and no register changes; only CGET 7 is affected by the XOR with 1. -/
def Obligations.CgetReadsOneChecksumSymbol : Prop :=
  (∀ k : BitVec 3, decode (0x3300 ||| k.setWidth 16) = .ok (.cget k)) ∧
  (∀ a : Byte, 7 < a.toNat → ∀ i, decode (cmdWord 0x33 a) ≠ .ok i) ∧
  (∀ (k : BitVec 3) (s : State), regrouperOk s = true →
    exec (.cget k) s = .next { s with responses := s.responses ++
      [BitVec.ofNat 32 (0x04000000 + (s.chk ^^^ 1).toNat / 2 ^ (5 * (7 - k.toNat)) % 32)] }) ∧
  (∀ (k : BitVec 3) (c : ChkWord), k ≠ 7 →
    (c ^^^ 1).toNat / 2 ^ (5 * (7 - k.toNat)) % 32 = c.toNat / 2 ^ (5 * (7 - k.toNat)) % 32)

/-- R33, R44, R106: the eight commands in order leave the registers alone and return eight symbols which, read as base-32 digits most significant first, are CHK ^ 1. -/
def Obligations.EightCgetsRecoverChk : Prop :=
  ∀ s : State, regrouperOk s = true →
    ∃ (t : State) (symbols : List Symbol), runCommands (expand .cget8) s = .next t ∧ SameRegisters t s ∧ symbols.length = 8 ∧
      t.responses = s.responses ++ symbols.map (fun x => 0x04000000 ||| x.setWidth 32) ∧
      symbols.foldl (fun n x => n * 32 + x.toNat) 0 = (s.chk ^^^ 1).toNat

/-- R27, R109: bit 5 of the word RDST returns is 1 exactly when CHK = 1, and exactly when each of the eight CGET commands returns 0x04000000. -/
def Obligations.ZeroFlagMeansAllChecksumSymbolsZero : Prop :=
  ∀ (s t : State) (r : RspWord), exec .rdst s = .next t → t.responses = s.responses ++ [r] →
    (r.getLsbD 5 = true ↔ s.chk = 1) ∧
    (r.getLsbD 5 = true ↔ ∀ k : BitVec 3, exec (.cget k) s = .next { s with responses := s.responses ++ [0x04000000] })

/-- R101: the five constants in listing order, their low five bits 1, 2, 4, 8, 16, and their XOR 0xa21a66a29f. -/
def Obligations.GeneratorTableChecks : Prop :=
  generators = [0x98f2bc8e61, 0x79b76d99e2, 0xf33e5fb3c4, 0xae2eabe2a8, 0x1e4f43e470] ∧
  generators.map (fun g => g.extractLsb' 0 5) = [1, 2, 4, 8, 16] ∧
  generators.foldl (fun a g => a ^^^ g) 0 = 0xa21a66a29f

/-- R102: step(c, s) is ((c & 0x07ffffffff) << 5) ^ s, XORed with generator i for each bit i of c >> 35 that is set. -/
def Obligations.UpdateStepIsTheFormulaOfTheRule : Prop :=
  ∀ (c : ChkWord) (x : Symbol), polyStep c x =
    ((c &&& 0x07ffffffff) <<< 5) ^^^ x.setWidth 40 ^^^
    (if c.getLsbD 35 then 0x98f2bc8e61 else 0) ^^^ (if c.getLsbD 36 then 0x79b76d99e2 else 0) ^^^
    (if c.getLsbD 37 then 0xf33e5fb3c4 else 0) ^^^ (if c.getLsbD 38 then 0xae2eabe2a8 else 0) ^^^
    (if c.getLsbD 39 then 0x1e4f43e470 else 0)

/-- R102: step(c1 ^ c2, s1 ^ s2) = step(c1, s1) ^ step(c2, s2) for all values. -/
def Obligations.UpdateStepIsLinear : Prop :=
  ∀ (c d : ChkWord) (x y : Symbol), polyStep (c ^^^ d) (x ^^^ y) = polyStep c x ^^^ polyStep d y

/-- R100: CINIT, one CPFX per prefix character and one CSYM per symbol complete with empty responses and leave in CHK the polymod of the low five bits of the characters followed by the symbols, XOR 1; nothing else changes. -/
def Obligations.FeedingCommandsComputePolymod : Prop :=
  ∀ (pre : List Byte) (symbols : List Symbol) (s : State), regrouperOk s = true →
    runCommands (.cinit :: (pre.map .cpfx ++ symbols.map fun x => .csym (x.setWidth 8))) s =
      .next { s with chk := polymod (pre.map (fun c => (c &&& 0x1F).setWidth 5) ++ symbols) ^^^ 1,
                     responses := s.responses ++ List.replicate (1 + pre.length + symbols.length) 0x00000000 }

/-- R110: for every symbol sequence X, with p the polymod of X followed by eight zeros and T the eight symbols of p most significant first, the polymod of X followed by T is 0. -/
def Obligations.GenerationAndValidationAgree : Prop :=
  ∀ symbols : List Symbol,
    polymod (symbols ++ checksumSymbols (polymod (symbols ++ List.replicate 8 0))) = 0

/-! ## Whole calls of the surrounding software -/

/-- R140: for every hash of a length in the table, both types and every prefix without uppercase letters and separator, encode with the prefix from any state of the block that meets its invariant succeeds, and decode of the address with that prefix as the candidate, from any such state, gives hash, type and prefix. R129 speaks of a short lowercase ASCII string; that the empty prefix and every other code but uppercase letters and the separator is accepted, and that decode folds by R76, is the model's reading of U8 and U7 (log entry 11, DEDUCED). Both blocks have the same ALPHA31, one legal by log entry 7 (DEDUCED), such as the default l, and not the separator itself: U3 does not shut the separator out, but with it an address splits at symbol 31 (log entry 7). -/
def Obligations.AddressRoundTrip : Prop :=
  ∀ (hash pre : List Byte) (ty : AddressType) (s u : State), hash.length ∈ [20, 24, 28, 32, 40, 48, 56, 64] →
    plainPre pre = true → regrouperOk s = true → regrouperOk u = true →
    legalConfig s.config = true → s.config.alpha31 ≠ 0x3A → u.config = s.config →
    ∃ address, (encodeAddress hash ty pre true s).result = .ok address ∧
      (decodeAddress address [pre] u).result = .ok (hash, ty, pre)

/-- R126, R131 step 1: encoding fails with UnsupportedHashSize if and only if the hash is not of 20, 24, 28, 32, 40, 48, 56 or 64 bytes, from every state and for every prefix; it then fails before any command is issued, so the block is as before. -/
def Obligations.UnsupportedHashSizeFailsFirst : Prop :=
  ∀ (hash pre : List Byte) (ty : AddressType) (withPre : Bool) (s : State),
    ((encodeAddress hash ty pre withPre s).result = .error .unsupportedHashSize ↔
      hash.length ∉ [20, 24, 28, 32, 40, 48, 56, 64]) ∧
    (hash.length ∉ [20, 24, 28, 32, 40, 48, 56, 64] → (encodeAddress hash ty pre withPre s).block = s)

/-- R141: for a plain prefix and a text with no uppercase letter and no separator, decoding prefix, colon and text (whatever the candidates) is decoding the text with the prefix as the one candidate. That the empty prefix, and codes beyond the lowercase ASCII of R129, are decoded at all, and how case is tested, is the model's reading of U7 and U8 (log entry 11, DEDUCED). -/
def Obligations.OmittedPrefixDecodesAlike : Prop :=
  ∀ (pre text : List Byte) (candidates : List (List Byte)) (s : State), plainPre pre = true → plainPre text = true →
    decodeAddress (pre ++ [0x3A] ++ text) candidates s = decodeAddress text [pre] s

/-- R173, R177 to R179, as the check of log entry 13 (DESIGN CHOICE) states them. Accepted, with the responses the block itself gives from any state that meets its invariant: the commands of an encode (conversion of version byte and hash, generation, S2A of payload and checksum symbols), which are the ones encodeAddress leaves the block after; and those of a decode (A2S of the text, one validation for each candidate tried, the strict conversion of the payload). Refused, whatever follows: RPUSH, CSYM or CPFX before RINIT or CINIT or after a fault of the unit, RFLUSH after a fault of the conversion, a second RINIT or CINIT right after the first, and a conversion left without RFLUSH. -/
def Obligations.CallsKeepTheHostRules : Prop :=
  (∀ (hash pre payload check : List Byte) (ty : AddressType) (code : Nat) (withPre : Bool) (s s₁ s₂ : State), regrouperOk s = true →
    sizeCode (hash.length * 8) = some code →
    issueAll (conversionCommands 0 (versionByte ty code :: hash)) s = ⟨.ok payload, s₁⟩ →
    issueAll (generationCommands pre payload) s₁ = ⟨.ok check, s₂⟩ →
    ∃ tr t, trace (conversionCommands 0 (versionByte ty code :: hash) ++ generationCommands pre payload ++
        (payload ++ check).map .s2a) s = some (tr, t) ∧
      disciplined Watch.start tr = true ∧ (encodeAddress hash ty pre withPre s).block = t) ∧
  (∀ (text symbols : List Byte) (tried : List (List Byte)) (s s₁ : State), regrouperOk s = true →
    issueAll (text.map .a2s) s = ⟨.ok symbols, s₁⟩ → 8 ≤ symbols.length →
    ∃ tr t, trace (text.map .a2s ++ tried.flatMap (fun p => validationCommands p symbols) ++
        conversionCommands 3 (symbols.take (symbols.length - 8))) s = some (tr, t) ∧
      disciplined Watch.start tr = true) ∧
  (∀ (w : Watch) (v : Byte) (r : Response) (rest : List (Instr × Response)), w.conversion = .closed ∨ w.conversion = .failed →
    disciplined w ((.rpush v, r) :: rest) = false) ∧
  (∀ (w : Watch) (r : Response) (rest : List (Instr × Response)), w.conversion = .failed →
    disciplined w ((.rflush, r) :: rest) = false) ∧
  (∀ (w : Watch) (i : Instr) (r : Response) (rest : List (Instr × Response)), w.checksum = .closed ∨ w.checksum = .failed →
    (∃ v, i = .csym v ∨ i = .cpfx v) → disciplined w ((i, r) :: rest) = false) ∧
  (∀ (w : Watch) (v u : Byte) (k : FaultKind) (r : Response) (rest : List (Instr × Response)),
    disciplined w ((.rpush v, .error k) :: (.rpush u, r) :: rest) = false ∧
    disciplined w ((.rflush, .error k) :: (.rpush u, r) :: rest) = false ∧
    disciplined w ((.csym v, .error k) :: (.csym u, r) :: rest) = false) ∧
  (∀ (w : Watch) (m n : BitVec 2) (r q : Response) (rest : List (Instr × Response)),
    disciplined w ((.rinit m, r) :: (.rinit n, q) :: rest) = false ∧
    disciplined w ((.cinit, r) :: (.cinit, q) :: rest) = false) ∧
  (∀ (w : Watch) (m : BitVec 2) (r : Response) (pushed : List (Byte × Response)), (∀ p ∈ pushed, p.2.isOk = true) →
    disciplined w ((.rinit m, r) :: pushed.map fun p => (Instr.rpush p.1, p.2)) = false)

/-! ## The open parameter -/

/-- R8, R32: the block has one ALPHA31 through every step, whatever the host's event and whatever the state, reset, SRST and illegal words among them; the alphabet table it gives stays with it. That it stands in a field of the state is the model's choice (log entry 17, DESIGN CHOICE); the reset state has the spec's default l (log entry 6, PRESUMED). -/
def Obligations.NoStepChangesTheAlphabet : Prop :=
  State.reset.config.alpha31 = 0x6C ∧
  (∀ s t : State, step s = .next t → t.config = s.config ∧ alphaTable t.config = alphaTable s.config) ∧
  (∀ cfg : Config, (State.resetWith cfg).config = cfg ∧ SameRegisters (State.resetWith cfg) State.reset)
end

