-- ==== Sys2Proof/Laws/Address.lean ====
section
/-! SUPPORT. What the next stage of a call, one command of a sequence, and one command under the host's rules can do, said once. -/

namespace Sys2Proof.Machine

@[simp] theorem Call.andThen_ok {α β : Type} (a : α) (s : State) (f : α → State → Call β) :
    (Call.mk (.ok a) s).andThen f = f a s := rfl

@[simp] theorem Call.andThen_error {α β : Type} (e : CallError) (s : State) (f : α → State → Call β) :
    (Call.mk (.error e) s).andThen f = ⟨.error e, s⟩ := rfl

/-- A call of two stages succeeds exactly when both do, the second on the block the first leaves. -/
theorem Call.andThen_result_ok {α β : Type} {c : Call α} {f : α → State → Call β} {b : β} :
    (c.andThen f).result = .ok b ↔ ∃ a, c.result = .ok a ∧ (f a c.block).result = .ok b := by
  rcases c with ⟨_ | a, s⟩ <;> simp

@[simp] theorem trace_nil (s : State) : trace [] s = some ([], s) := rfl

/-- A sequence runs as its first command and then the rest on the block that leaves. -/
theorem trace_cons_of_issue {i : Instr} {r : Response} {s t : State} (h : issue i s = some (r, t)) (is : List Instr) :
    trace (i :: is) s = (trace is t).map fun p => ((i, r) :: p.1, p.2) := by
  simp [trace, h]

@[simp] theorem disciplined_nil (w : Watch) : disciplined w [] = (w.conversion != .running) := rfl

/-- A run keeps the host's rules exactly when its first command does and the rest does from the standing that leaves. -/
theorem disciplined_cons {w : Watch} {i : Instr} {r : Response} {rest : List (Instr × Response)} :
    disciplined w ((i, r) :: rest) = true ↔ ∃ w', w.next i r = some w' ∧ disciplined w' rest = true := by
  simp only [disciplined]
  cases w.next i r <;> simp

/-- Feeding leads on only from a unit that has been begun and has not failed (R173, R178). -/
theorem UnitPhase.fed_eq_some {p q : UnitPhase} {r : Response} :
    p.fed r = some q ↔ (p = .running ∨ p = .read) ∧ q = if r.isOk then .running else .failed := by
  unfold UnitPhase.fed
  split <;> rename_i h
  · simp only [h, true_and, Option.some.injEq]; exact eq_comm
  · simp [h]

end Sys2Proof.Machine
end

