-- ==== Sys2Proof/Laws/Decode.lean ====
section
/-! SUPPORT. The fields of a command word, and what each operand form's decoding can answer. -/

namespace Sys2Proof

@[simp] theorem opField_cmdWord (op arg : Byte) : opField (cmdWord op arg) = op := by
  ext j hj
  simp only [opField, cmdWord, BitVec.getElem_extractLsb']
  erw [BitVec.getLsbD_append]
  rw [if_neg (by omega), show 8 + j - 8 = j by omega, BitVec.getLsbD_eq_getElem hj]

@[simp] theorem argField_cmdWord (op arg : Byte) : argField (cmdWord op arg) = arg := by
  ext j hj
  simp only [argField, cmdWord, BitVec.getElem_extractLsb']
  erw [BitVec.getLsbD_append]
  rw [if_pos (by omega), show 0 + j = j by omega, BitVec.getLsbD_eq_getElem hj]

/-- A word is the word of its two fields. -/
theorem cmdWord_fields (w : CmdWord) : cmdWord (opField w) (argField w) = w := by
  simp only [cmdWord, opField, argField]
  ext j hj
  simp only [BitVec.getElem_append, BitVec.getElem_extractLsb']
  split
  · simp [BitVec.getLsbD_eq_getElem hj]
  · rw [show 8 + (j - 8) = j by omega]
    simp [BitVec.getLsbD_eq_getElem hj]

theorem decodeZ_ok {op arg : Byte} {i j : Instr} : decodeZ op arg i = .ok j ↔ arg = 0 ∧ i = j := by
  unfold decodeZ; split <;> simp_all

theorem decodeM_ok {op arg : Byte} {i : BitVec 2 → Instr} {j : Instr} :
    decodeM op arg i = .ok j ↔ arg.extractLsb' 2 6 = 0 ∧ i (arg.extractLsb' 0 2) = j := by
  unfold decodeM; split <;> simp_all

theorem decodeK_ok {op arg : Byte} {i : BitVec 3 → Instr} {j : Instr} :
    decodeK op arg i = .ok j ↔ arg.extractLsb' 3 5 = 0 ∧ i (arg.extractLsb' 0 3) = j := by
  unfold decodeK; split <;> simp_all

theorem decodeF_ok {op arg : Byte} {i : BitVec 4 → Instr} {j : Instr} :
    decodeF op arg i = .ok j ↔ arg.extractLsb' 4 4 = 0 ∧ i (arg.extractLsb' 0 4) = j := by
  unfold decodeF; split <;> simp_all

end Sys2Proof
end

