-- ==== Sys2Proof/Laws/State.lean ====
section
/-! SUPPORT. One lemma per field of each state update of the shared operations, so that no later proof unfolds a record update. -/

namespace Sys2Proof.Machine

section Respond
variable (r : Response) (s : State)
@[simp] theorem respond_chk : (respond r s).chk = s.chk := rfl
@[simp] theorem respond_acc : (respond r s).acc = s.acc := rfl
@[simp] theorem respond_bits : (respond r s).bits = s.bits := rfl
@[simp] theorem respond_dir : (respond r s).dir = s.dir := rfl
@[simp] theorem respond_strict : (respond r s).strict = s.strict := rfl
@[simp] theorem respond_err : (respond r s).err = s.err := rfl
@[simp] theorem respond_pending : (respond r s).pending = s.pending := rfl
@[simp] theorem respond_config : (respond r s).config = s.config := rfl
@[simp] theorem respond_responses : (respond r s).responses = s.responses ++ [responseWord r] := rfl
end Respond

section WithFlag
variable (k : FaultKind) (s : State)
@[simp] theorem withFlag_chk : (withFlag k s).chk = s.chk := rfl
@[simp] theorem withFlag_acc : (withFlag k s).acc = s.acc := rfl
@[simp] theorem withFlag_bits : (withFlag k s).bits = s.bits := rfl
@[simp] theorem withFlag_dir : (withFlag k s).dir = s.dir := rfl
@[simp] theorem withFlag_strict : (withFlag k s).strict = s.strict := rfl
@[simp] theorem withFlag_err : (withFlag k s).err = s.err ||| faultFlag k := rfl
@[simp] theorem withFlag_pending : (withFlag k s).pending = s.pending := rfl
@[simp] theorem withFlag_config : (withFlag k s).config = s.config := rfl
@[simp] theorem withFlag_responses : (withFlag k s).responses = s.responses := rfl
end WithFlag

section ResetRegisters
variable (s : State)
@[simp] theorem resetRegisters_chk : (resetRegisters s).chk = 1 := rfl
@[simp] theorem resetRegisters_acc : (resetRegisters s).acc = 0 := rfl
@[simp] theorem resetRegisters_bits : (resetRegisters s).bits = 0 := rfl
@[simp] theorem resetRegisters_dir : (resetRegisters s).dir = false := rfl
@[simp] theorem resetRegisters_strict : (resetRegisters s).strict = false := rfl
@[simp] theorem resetRegisters_err : (resetRegisters s).err = 0 := rfl
@[simp] theorem resetRegisters_pending : (resetRegisters s).pending = s.pending := rfl
@[simp] theorem resetRegisters_config : (resetRegisters s).config = s.config := rfl
@[simp] theorem resetRegisters_responses : (resetRegisters s).responses = s.responses := rfl
end ResetRegisters

section Emptied
variable (s : State)
@[simp] theorem emptied_chk : (emptied s).chk = s.chk := rfl
@[simp] theorem emptied_acc : (emptied s).acc = 0 := rfl
@[simp] theorem emptied_bits : (emptied s).bits = 0 := rfl
@[simp] theorem emptied_dir : (emptied s).dir = s.dir := rfl
@[simp] theorem emptied_strict : (emptied s).strict = s.strict := rfl
@[simp] theorem emptied_err : (emptied s).err = s.err := rfl
@[simp] theorem emptied_pending : (emptied s).pending = s.pending := rfl
@[simp] theorem emptied_config : (emptied s).config = s.config := rfl
@[simp] theorem emptied_responses : (emptied s).responses = s.responses := rfl
end Emptied

section WithLeftover
variable (a : BitVec 12) (b : Nat) (s : State)
@[simp] theorem withLeftover_chk : (withLeftover a b s).chk = s.chk := rfl
@[simp] theorem withLeftover_acc :
    (withLeftover a b s).acc = a.setWidth 7 &&& BitVec.ofNat 7 (2 ^ b - 1) := rfl
@[simp] theorem withLeftover_bits : (withLeftover a b s).bits = BitVec.ofNat 3 b := rfl
@[simp] theorem withLeftover_dir : (withLeftover a b s).dir = s.dir := rfl
@[simp] theorem withLeftover_strict : (withLeftover a b s).strict = s.strict := rfl
@[simp] theorem withLeftover_err : (withLeftover a b s).err = s.err := rfl
@[simp] theorem withLeftover_pending : (withLeftover a b s).pending = s.pending := rfl
@[simp] theorem withLeftover_config : (withLeftover a b s).config = s.config := rfl
@[simp] theorem withLeftover_responses : (withLeftover a b s).responses = s.responses := rfl
end WithLeftover

/-- The invariant reads `ACC`, `BITS` and `DIR` only. -/
theorem regrouperOk_congr {s t : State} (ha : t.acc = s.acc) (hb : t.bits = s.bits) (hd : t.dir = s.dir) :
    regrouperOk t = regrouperOk s := by
  simp [regrouperOk, ha, hb, hd]

@[simp] theorem regrouperOk_respond (r : Response) (s : State) : regrouperOk (respond r s) = regrouperOk s := rfl
@[simp] theorem regrouperOk_withFlag (k : FaultKind) (s : State) : regrouperOk (withFlag k s) = regrouperOk s := rfl

/-- An empty regrouper meets the invariant in either direction. -/
theorem regrouperOk_of_empty {s : State} (ha : s.acc = 0) (hb : s.bits = 0) : regrouperOk s = true := by
  cases hd : s.dir <;> simp [regrouperOk, ha, hb, toWidth, hd]

end Sys2Proof.Machine
end

