-- ==== Sys2Proof/Laws/Ops.lean ====
section
/-! SUPPORT. For each shared operation, what it can do, said once: later proofs cite these and do not unfold. -/

namespace Sys2Proof.Machine

@[simp] theorem finish_eq (r : Response) (s : State) : finish r s = .next (respond r s) := rfl

@[simp] theorem raise_eq (k : FaultKind) (s : State) : raise k s = .next (respond (.error k) (withFlag k s)) := rfl

/-- A guarded command runs where the invariant holds. -/
theorem whenRegrouperOk_of_ok {s : State} (h : regrouperOk s = true) (r : Result) : whenRegrouperOk s r = r := by
  simp [whenRegrouperOk, h]

/-- A guarded command is refused where it does not. -/
theorem whenRegrouperOk_of_not {s : State} (h : regrouperOk s = false) (r : Result) :
    whenRegrouperOk s r = .refused .regrouperInvariantBroken := by
  simp [whenRegrouperOk, h]

/-- A guarded command answers a next state only where the invariant holds, and then its own. -/
theorem whenRegrouperOk_next {s t : State} {r : Result} :
    whenRegrouperOk s r = .next t ↔ regrouperOk s = true ∧ r = .next t := by
  unfold whenRegrouperOk
  split <;> simp_all

/-- The symbol operand below 32. -/
theorem operandSymbol_of_le {v : Byte} (h : v.toNat ≤ 31) : operandSymbol v = some (v.setWidth 5) := by
  simp [operandSymbol, Nat.not_lt.mpr h]

/-- The symbol operand above 31. -/
theorem operandSymbol_of_gt {v : Byte} (h : 31 < v.toNat) : operandSymbol v = none := by
  simp [operandSymbol, h]

/-- The end a command can come to where the invariant holds: one response word is delivered on a state `u`, which is the flagged
old state when the response is an error. -/
def EndsWith (s : State) (r : Result) (c : Response) (u : State) : Prop :=
  r = .next (respond c u) ∧ ∀ k, c = .error k → u = withFlag k s

theorem endsWith_finish (s u : State) (c : Response) (h : ∀ k, c ≠ .error k) : EndsWith s (finish c u) c u :=
  ⟨rfl, fun k hk => absurd hk (h k)⟩

theorem endsWith_raise (s : State) (k : FaultKind) : EndsWith s (raise k s) (.error k) (withFlag k s) :=
  ⟨rfl, fun k' hk => by cases hk; rfl⟩

/-- A response made of data is no error. -/
theorem responseOfData_ne_error (d : List Byte) (k : FaultKind) : responseOfData d ≠ .error k := by
  match d with
  | [] => simp [responseOfData]
  | [_] => simp [responseOfData]
  | _ :: _ :: _ => simp [responseOfData]

end Sys2Proof.Machine
end

