-- ==== Sys2Proof/Laws/Response.lean ====
section
/-! SUPPORT. The fields of a response word (R56), bit by bit and field by field, and the host's reading of it. -/

namespace Sys2Proof.Machine

/-- Bit `j` of a response word: `d0`, `d1`, ten zeros, `n`, `err` (R56). -/
theorem rspWord_getLsbD (err : BitVec 4) (n : BitVec 2) (d1 d0 : Byte) (j : Nat) :
    (rspWord err n d1 d0).getLsbD j =
      if j < 8 then d0.getLsbD j else if j < 16 then d1.getLsbD (j - 8) else if j < 26 then false
      else if j < 28 then n.getLsbD (j - 26) else err.getLsbD (j - 28) := by
  unfold rspWord
  erw [BitVec.getLsbD_append, BitVec.getLsbD_append, BitVec.getLsbD_append, BitVec.getLsbD_append]
  repeat' split
  all_goals first | rfl | omega | simp

@[simp] theorem rspWord_err (err : BitVec 4) (n : BitVec 2) (d1 d0 : Byte) : (rspWord err n d1 d0).extractLsb' 28 4 = err := by
  ext j hj
  rw [BitVec.getElem_extractLsb', rspWord_getLsbD, if_neg (by omega), if_neg (by omega), if_neg (by omega), if_neg (by omega),
    Nat.add_sub_cancel_left, BitVec.getLsbD_eq_getElem hj]

@[simp] theorem rspWord_n (err : BitVec 4) (n : BitVec 2) (d1 d0 : Byte) : (rspWord err n d1 d0).extractLsb' 26 2 = n := by
  ext j hj
  rw [BitVec.getElem_extractLsb', rspWord_getLsbD, if_neg (by omega), if_neg (by omega), if_neg (by omega), if_pos (by omega),
    Nat.add_sub_cancel_left, BitVec.getLsbD_eq_getElem hj]

@[simp] theorem rspWord_reserved (err : BitVec 4) (n : BitVec 2) (d1 d0 : Byte) : (rspWord err n d1 d0).extractLsb' 16 10 = 0 := by
  ext j hj
  rw [BitVec.getElem_extractLsb', rspWord_getLsbD, if_neg (by omega), if_neg (by omega), if_pos (by omega)]
  simp

@[simp] theorem rspWord_d1 (err : BitVec 4) (n : BitVec 2) (d1 d0 : Byte) : (rspWord err n d1 d0).extractLsb' 8 8 = d1 := by
  ext j hj
  rw [BitVec.getElem_extractLsb', rspWord_getLsbD, if_neg (by omega), if_pos (by omega),
    Nat.add_sub_cancel_left, BitVec.getLsbD_eq_getElem hj]

@[simp] theorem rspWord_d0 (err : BitVec 4) (n : BitVec 2) (d1 d0 : Byte) : (rspWord err n d1 d0).extractLsb' 0 8 = d0 := by
  ext j hj
  rw [BitVec.getElem_extractLsb', rspWord_getLsbD, if_pos (by omega), Nat.zero_add, BitVec.getLsbD_eq_getElem hj]

/-- The codes of the kinds read back (R151). -/
@[simp] theorem faultKindOfCode_faultCode (k : FaultKind) : faultKindOfCode (faultCode k) = some k := by cases k <;> rfl

/-- Every response the block returns reads back as itself (R56). -/
@[simp] theorem responseOfWord_responseWord (r : Response) : responseOfWord (responseWord r) = some r := by
  cases r with
  | ok0 => rfl
  | ok1 d => simp [responseOfWord, responseWord, rspWord_err, rspWord_n, rspWord_d0]
  | ok2 d e => simp [responseOfWord, responseWord, rspWord_err, rspWord_n, rspWord_d0, rspWord_d1]
  | error k => cases k <;> rfl

end Sys2Proof.Machine
end

