-- ==== Sys2Proof/Laws/Exec.lean ====
section
/-! SUPPORT. What the regrouper's loop leaves, and what a command can do, said once over all twelve. -/

namespace Sys2Proof.Machine

/-- The output width is 5 or 8. -/
theorem toWidth_cases (dir : Bool) : toWidth dir = 5 ∨ toWidth dir = 8 := by cases dir <;> simp [toWidth]

/-- Two rounds of the loop of R88 take all whole values out of a count below three widths. -/
theorem emitWhole_two (dir : Bool) (a : BitVec 12) (b : Nat) (h : b < 3 * toWidth dir) :
    (emitWhole dir a 2 b).2 = b % toWidth dir ∧ (emitWhole dir a 2 b).1.length = b / toWidth dir := by
  rcases toWidth_cases dir with hw | hw <;> rw [hw] at h ⊢ <;> simp only [emitWhole, hw] <;> split
  all_goals first
    | (split <;> simp <;> omega)
    | (simp; omega)

/-- Under the invariant the count during `RPUSH` stays below three output widths (R24: at most 12). -/
theorem pushCount_lt {s : State} (h : regrouperOk s = true) :
    s.bits.toNat + fromWidth s.dir < 3 * toWidth s.dir := by
  simp only [regrouperOk, Bool.and_eq_true, decide_eq_true_eq] at h
  have := h.1
  cases hd : s.dir <;> simp_all [toWidth, fromWidth] <;> omega

/-- The leftover registers fit their count whatever the pushed value was: masking is what R25 needs. -/
theorem regrouperOk_withLeftover (a : BitVec 12) (b : Nat) (s : State) (hb : b < toWidth s.dir) :
    regrouperOk (withLeftover a b s) = true := by
  have hb8 : b < 8 := by rcases toWidth_cases s.dir with hw | hw <;> omega
  have hbits : (BitVec.ofNat 3 b).toNat = b := by simp; omega
  simp only [regrouperOk, withLeftover_bits, withLeftover_dir, withLeftover_acc, hbits, Bool.and_eq_true, decide_eq_true_eq]
  refine ⟨hb, ?_⟩
  have hp : 0 < 2 ^ b := Nat.two_pow_pos b
  have hm : (BitVec.ofNat 7 (2 ^ b - 1)).toNat ≤ 2 ^ b - 1 := by
    simp only [BitVec.toNat_ofNat]; exact Nat.mod_le _ _
  have := Nat.and_le_right (n := (a.setWidth 7).toNat) (m := (BitVec.ofNat 7 (2 ^ b - 1)).toNat)
  rw [BitVec.toNat_and]
  omega

/-- Where the invariant holds every command ends with one response, on the flagged old state when it is an error. -/
theorem exec_endsWith (i : Instr) {s : State} (h : regrouperOk s = true) : ∃ c u, EndsWith s (exec i s) c u := by
  cases i with
  | rdst => exact ⟨_, _, by simp only [exec, execRdst, whenRegrouperOk_of_ok h]; exact endsWith_finish _ _ _ (by simp)⟩
  | eclr f => exact ⟨_, _, by simp only [exec, execEclr, whenRegrouperOk_of_ok h]; exact endsWith_finish _ _ _ (by simp)⟩
  | srst => exact ⟨_, _, by simp only [exec, execSrst, whenRegrouperOk_of_ok h]; exact endsWith_finish _ _ _ (by simp)⟩
  | a2s c =>
    simp only [exec, execA2s, whenRegrouperOk_of_ok h]
    split
    · exact ⟨_, _, endsWith_finish _ _ _ (by simp)⟩
    · exact ⟨_, _, endsWith_raise _ _⟩
  | s2a v =>
    simp only [exec, execS2a, whenRegrouperOk_of_ok h]
    split
    · exact ⟨_, _, endsWith_finish _ _ _ (by simp)⟩
    · exact ⟨_, _, endsWith_raise _ _⟩
  | rinit m => exact ⟨_, _, by simp only [exec, execRinit, whenRegrouperOk_of_ok h]; exact endsWith_finish _ _ _ (by simp)⟩
  | rpush v =>
    simp only [exec, execRpush, whenRegrouperOk_of_ok h]
    split
    · exact ⟨_, _, endsWith_raise _ _⟩
    · exact ⟨_, _, endsWith_finish _ _ _ (responseOfData_ne_error _)⟩
  | rflush =>
    simp only [exec, execRflush, whenRegrouperOk_of_ok h]
    split
    · split
      · exact ⟨_, _, endsWith_raise _ _⟩
      · exact ⟨_, _, endsWith_finish _ _ _ (by simp)⟩
    · exact ⟨_, _, endsWith_finish _ _ _ (responseOfData_ne_error _)⟩
  | cinit => exact ⟨_, _, by simp only [exec, execCinit, whenRegrouperOk_of_ok h]; exact endsWith_finish _ _ _ (by simp)⟩
  | csym v =>
    simp only [exec, execCsym, whenRegrouperOk_of_ok h]
    split
    · exact ⟨_, _, endsWith_finish _ _ _ (by simp)⟩
    · exact ⟨_, _, endsWith_raise _ _⟩
  | cpfx c => exact ⟨_, _, by simp only [exec, execCpfx, whenRegrouperOk_of_ok h]; exact endsWith_finish _ _ _ (by simp)⟩
  | cget k => exact ⟨_, _, by simp only [exec, execCget, whenRegrouperOk_of_ok h]; exact endsWith_finish _ _ _ (by simp)⟩

/-- The lookup fails exactly when no table entry is the folded code (R77). -/
theorem symbolOf_eq_none {cfg : Config} {c : Byte} :
    symbolOf cfg c = none ↔ ∀ a ∈ alphaTable cfg, a ≠ foldCase c := by
  simp [symbolOf, List.findIdx?_eq_none_iff]

end Sys2Proof.Machine
end

