-- ==== Sys2Proof/Laws/PerInstr.lean ====
section
/-! SUPPORT. The statements made of every command as syntax, one lemma per constructor. Family `OpcodeMap`: the word a command
encodes to is accepted by a row of the opcode map under the command's own mnemonic (R62). -/

namespace Sys2Proof.Laws.OpcodeMap

/-- Some row of the opcode map carries the command's mnemonic and accepts its word (R62). -/
def Statement (i : Instr) : Prop := ∃ r ∈ opcodeTable, r.mnemonic = i.mnemonic ∧ r.accepts (encode i) = true

/-- A row of the table with the mnemonic, and the masked word, give the statement. -/
theorem of_row {i : Instr} (r : OpcodeRow) (hr : r ∈ opcodeTable) (hm : r.mnemonic = i.mnemonic)
    (ha : (encode i &&& r.mask) = r.value) : Statement i :=
  ⟨r, hr, hm, by simp [OpcodeRow.accepts, ha]⟩

theorem rdst : Statement .rdst := of_row ⟨"RDST", 0xFFFF, 0x0100⟩ (by decide) rfl (by decide)

theorem eclr (f : BitVec 4) : Statement (.eclr f) :=
  of_row ⟨"ECLR", 0xFFF0, 0x0200⟩ (by decide) rfl (by revert f; decide)

theorem srst : Statement .srst := of_row ⟨"SRST", 0xFFFF, 0x0300⟩ (by decide) rfl (by decide)

/-- A form B or S word under the mask `0xFF00` keeps its opcode only. -/
theorem cmdWord_and_opcode (op arg : Byte) : (cmdWord op arg &&& 0xFF00) = cmdWord op 0 := by
  show (op ++ arg) &&& (0xFF#8 ++ 0#8) = op ++ 0#8
  rw [BitVec.and_append, show 0xFF#8 = BitVec.allOnes 8 from rfl, BitVec.and_allOnes, BitVec.and_zero]

theorem a2s (c : Byte) : Statement (.a2s c) :=
  of_row ⟨"A2S", 0xFF00, 0x1000⟩ (by decide) rfl (cmdWord_and_opcode 0x10 c)

theorem s2a (s : Byte) : Statement (.s2a s) :=
  of_row ⟨"S2A", 0xFF00, 0x1100⟩ (by decide) rfl (cmdWord_and_opcode 0x11 s)

theorem rinit (m : BitVec 2) : Statement (.rinit m) :=
  of_row ⟨"RINIT", 0xFFFC, 0x2000⟩ (by decide) rfl (by revert m; decide)

theorem rpush (v : Byte) : Statement (.rpush v) :=
  of_row ⟨"RPUSH", 0xFF00, 0x2100⟩ (by decide) rfl (cmdWord_and_opcode 0x21 v)

theorem rflush : Statement .rflush := of_row ⟨"RFLUSH", 0xFFFF, 0x2200⟩ (by decide) rfl (by decide)

theorem cinit : Statement .cinit := of_row ⟨"CINIT", 0xFFFF, 0x3000⟩ (by decide) rfl (by decide)

theorem csym (s : Byte) : Statement (.csym s) :=
  of_row ⟨"CSYM", 0xFF00, 0x3100⟩ (by decide) rfl (cmdWord_and_opcode 0x31 s)

theorem cpfx (c : Byte) : Statement (.cpfx c) :=
  of_row ⟨"CPFX", 0xFF00, 0x3200⟩ (by decide) rfl (cmdWord_and_opcode 0x32 c)

theorem cget (k : BitVec 3) : Statement (.cget k) :=
  of_row ⟨"CGET", 0xFFF8, 0x3300⟩ (by decide) rfl (by revert k; decide)

end Sys2Proof.Laws.OpcodeMap
end

