-- ==== Sys2Proof/Tests/Slice0.lean ====
section
/-! SUPPORT. Tests. Every expected word and register is taken from the spec's examples and vectors (`95_test_vectors.md`, named V<n>
or P<n> in the comment) or worked out from the rule named. Each runs at most one step. Then the witnesses: concrete states and
operands that meet the hypotheses of the obligations. -/

namespace Sys2Proof.Tests

open Sys2Proof.Machine

/-- A state with nothing issued and nothing returned. -/
def st (chk : ChkWord) (acc : BitVec 7) (bits : BitVec 3) (dir strict : Bool) (err : BitVec 4) : State :=
  { State.reset with chk := chk, acc := acc, bits := bits, dir := dir, strict := strict, err := err }

/-- What one command word leaves, run as the machine's next step. -/
def after (w : Nat) (s : State) : Option State :=
  match step (s.withFetchWord 16 w) with
  | .next t => some t
  | _ => none

/-- The response and the registers after one command word: response, CHK, ACC, BITS, ERR. -/
def seen (w : Nat) (s : State) : Option (List RspWord × ChkWord × BitVec 7 × BitVec 3 × BitVec 4) :=
  (after w s).map fun t => (t.responses, t.chk, t.acc, t.bits, t.err)

/-! ## Well-formedness: an ill-formed raw command for each check -/

theorem test_wellFormed_refuses_unassigned_op : RawCommand.wellFormed ⟨0x12, 0x00⟩ = false := by decide
theorem test_wellFormed_refuses_operand_of_form_Z : RawCommand.wellFormed ⟨0x01, 0x01⟩ = false := by decide
theorem test_wellFormed_refuses_reserved_bits_of_form_M : RawCommand.wellFormed ⟨0x20, 0x04⟩ = false := by decide
theorem test_wellFormed_refuses_reserved_bits_of_form_K : RawCommand.wellFormed ⟨0x33, 0x08⟩ = false := by decide
theorem test_wellFormed_refuses_reserved_bits_of_form_F : RawCommand.wellFormed ⟨0x02, 0x10⟩ = false := by decide
theorem test_wellFormed_accepts_form_S_above_31 : RawCommand.wellFormed ⟨0x31, 0xFF⟩ = true := by decide
theorem test_wellFormed_accepts_form_B : RawCommand.wellFormed ⟨0x32, 0xFF⟩ = true := by decide

/-! ## Decoding: a word of every command, written out from R55 and R62 as op then arg -/

theorem test_decode_rdst : decode 0b00000001_00000000 = .ok .rdst := by decide
theorem test_decode_eclr : decode 0b00000010_00000101 = .ok (.eclr 0b0101) := by decide
theorem test_decode_srst : decode 0b00000011_00000000 = .ok .srst := by decide
theorem test_decode_a2s : decode 0b00010000_01110001 = .ok (.a2s 0x71) := by decide
theorem test_decode_s2a : decode 0b00010001_00100000 = .ok (.s2a 32) := by decide
theorem test_decode_rinit : decode 0b00100000_00000010 = .ok (.rinit 0b10) := by decide
theorem test_decode_rpush : decode 0b00100001_10100101 = .ok (.rpush 0xA5) := by decide
theorem test_decode_rflush : decode 0b00100010_00000000 = .ok .rflush := by decide
theorem test_decode_cinit : decode 0b00110000_00000000 = .ok .cinit := by decide
theorem test_decode_csym : decode 0b00110001_00011111 = .ok (.csym 31) := by decide
theorem test_decode_cpfx : decode 0b00110010_01100010 = .ok (.cpfx 0x62) := by decide
theorem test_decode_cget : decode 0b00110011_00000110 = .ok (.cget 6) := by decide

/-- V38: the illegal words, by name of the reason. -/
theorem test_decode_refuses_by_name :
    decode 0x0000 = .error (.unassignedOpcode 0x00) ∧ decode 0xFFFF = .error (.unassignedOpcode 0xFF) ∧
    decode 0x0101 = .error (.reservedOperandBits 0x01 0x01) ∧ decode 0x0210 = .error (.reservedOperandBits 0x02 0x10) ∧
    decode 0x2004 = .error (.reservedOperandBits 0x20 0x04) ∧ decode 0x3308 = .error (.reservedOperandBits 0x33 0x08) := by
  decide

/-- The other words of V38. -/
theorem test_decode_refuses_the_rest :
    decode 0x0301 = .error (.reservedOperandBits 0x03 0x01) ∧ decode 0x1200 = .error (.unassignedOpcode 0x12) ∧
    decode 0x2201 = .error (.reservedOperandBits 0x22 0x01) ∧ decode 0x3001 = .error (.reservedOperandBits 0x30 0x01) ∧
    decode 0x3400 = .error (.unassignedOpcode 0x34) ∧ decode 0x4000 = .error (.unassignedOpcode 0x40) := by
  decide

/-- R62: no two rows of the opcode map accept one word; their masked values differ under the common mask. -/
theorem test_opcode_rows_do_not_overlap :
    opcodeTable.Pairwise fun r q => (r.value &&& q.mask) ≠ (q.value &&& r.mask) := by
  decide

/-- R65: the spec's example of a mode operand, `RINIT 5to8,strict` is `0x2003`. -/
theorem test_assemble_rinit : (assemble "RINIT" (.mode true true)).map encode = some 0x2003 := by decide

/-- R65: a quoted character, `A2S 'q'` is `0x1071`. -/
theorem test_assemble_a2s : (assemble "A2S" (.character 0x71)).map encode = some 0x1071 := by decide

/-! ## One step of each command -/

/-- V37: after reset RDST answers 0x08000020. -/
theorem test_rdst_after_reset : seen 0x0100 .reset = some ([0x08000020], 1, 0, 0, 0) := by decide
/-- V40: from the arbitrary state of the vector RDST answers 0x08000F1F. -/
theorem test_rdst_all_fields :
    seen 0x0100 (st 0xabcdef0123 0b1010101 7 true true 15) = some ([0x08000F1F], 0xabcdef0123, 0b1010101, 7, 15) := by decide
/-- V39: with all flags set ECLR 5 leaves 0b1010. -/
theorem test_eclr_mask : seen 0x0205 (st 1 1 3 false true 15) = some ([0], 1, 1, 3, 0b1010) := by decide
/-- R116: ECLR 0 changes nothing. -/
theorem test_eclr_zero : seen 0x0200 (st 1 0 0 false false 6) = some ([0], 1, 0, 0, 6) := by decide
/-- V40: SRST from the arbitrary state. -/
theorem test_srst : seen 0x0300 (st 0xabcdef0123 0b1010101 7 true true 15) = some ([0], 1, 0, 0, 0) := by decide
/-- V2: uppercase Z is symbol 2. -/
theorem test_a2s_upper : seen 0x105A .reset = some ([0x04000002], 1, 0, 0, 0) := by decide
/-- V3: `[` is no letter, is not folded, and faults. -/
theorem test_a2s_fault : seen 0x105B .reset = some ([0x10000000], 1, 0, 0, 0b0001) := by decide
/-- V4: symbol 30 is `7`. -/
theorem test_s2a_30 : seen 0x111E .reset = some ([0x04000037], 1, 0, 0, 0) := by decide
/-- V5: S2A 32 faults. -/
theorem test_s2a_fault : seen 0x1120 .reset = some ([0x20000000], 1, 0, 0, 0b0010) := by decide
/-- R77: in a block whose ALPHA31 is `o`, `O` gives 31. -/
theorem test_a2s_other_alpha31 : seen 0x104F (.resetWith ⟨0x6F⟩) = some ([0x0400001F], 1, 0, 0, 0) := by decide
/-- R77: in that block `l` faults. -/
theorem test_a2s_l_faults_elsewhere : seen 0x106C (.resetWith ⟨0x6F⟩) = some ([0x10000000], 1, 0, 0, 0b0001) := by decide
/-- R78: `S2A 31` returns ALPHA31. -/
theorem test_s2a_other_alpha31 : seen 0x111F (.resetWith ⟨0x6F⟩) = some ([0x0400006F], 1, 0, 0, 0) := by decide
/-- R32: SRST writes no table. -/
theorem test_srst_keeps_alpha31 : (after 0x0300 (.resetWith ⟨0x6F⟩)).map (fun t => t.config.alpha31) = some 0x6F := by decide
/-- V20: RINIT in mid-conversion drops the leftover bits. -/
theorem test_rinit_drops : seen 0x2000 (st 1 0b111 3 false false 0) = some ([0], 1, 0, 0, 0) := by decide
/-- R87: `arg` = 1 is 5-to-8 lenient, DIR from bit 0. -/
theorem test_rinit_mode : (after 0x2001 .reset).map (fun t => (t.dir, t.strict)) = some (true, false) := by decide
/-- V9: the second push of the vector has two outputs, 28 in d0 and 0 in d1. -/
theorem test_rpush_two_outputs : seen 0x2100 (st 1 0b111 3 false false 0) = some ([0x0800001C], 1, 0, 1, 0) := by decide
/-- V19: 0x20 is too wide in the 5-to-8 direction; ACC and BITS stay. -/
theorem test_rpush_too_wide : seen 0x2120 (st 1 0b11111 5 true true 0) = some ([0x20000000], 1, 0b11111, 5, 0b0010) := by decide
/-- V8: the leftover `111` is padded to 28. -/
theorem test_rflush_lenient : seen 0x2200 (st 1 0b111 3 false false 0) = some ([0x0400001C], 1, 0, 0, 0) := by decide
/-- V17: a whole zero symbol left over fails in strict mode. -/
theorem test_rflush_strict_fault : seen 0x2200 (st 1 0 5 true true 0) = some ([0x30000000], 1, 0, 5, 0b0100) := by decide
/-- P2 line 1: CINIT disturbs no other register. -/
theorem test_cinit : seen 0x3000 (st 0x1234567890 0b101 3 false true 0b1010) = some ([0], 1, 0b101, 3, 0b1010) := by decide
/-- V26: the ninth CSYM 0 of the vector. -/
theorem test_csym_ninth : seen 0x3100 (st 0x98f2bc8e61 0 0 false false 0) = some ([0], 0xe15d033fd3, 0, 0, 0) := by decide
/-- V29a: CSYM 32 faults and leaves CHK. -/
theorem test_csym_fault : seen 0x3120 (st 0x25 0 0 false false 0) = some ([0x20000000], 0x25, 0, 0, 0b0010) := by decide
/-- V29: CPFX 'h' at the end of the prefix. -/
theorem test_cpfx : seen 0x3268 (st 0x7445c65529 0 0 false false 0) = some ([0], 0xac1f536da6, 0, 0, 0) := by decide
/-- V29: the uppercase letter does the same. -/
theorem test_cpfx_upper : seen 0x3248 (st 0x7445c65529 0 0 false false 0) = some ([0], 0xac1f536da6, 0, 0, 0) := by decide
/-- R106, example: CGET 0 of 0x98f2bc8e61 is 19. -/
theorem test_cget_first : seen 0x3300 (st 0x98f2bc8e61 0 0 false false 0) = some ([0x04000013], 0x98f2bc8e61, 0, 0, 0) := by decide
/-- R106, example: CGET 7 is the symbol the final XOR reaches, 0. -/
theorem test_cget_last : seen 0x3307 (st 0x98f2bc8e61 0 0 false false 0) = some ([0x04000000], 0x98f2bc8e61, 0, 0, 0) := by decide
/-- V38: an illegal word preserves the state and sets E_ILL. -/
theorem test_illegal_word : seen 0x0000 (st 1 0b101 5 true true 0) = some ([0xF0000000], 1, 0b101, 5, 0b1000) := by decide

/-- V28: one generator at a time, bit 35 + i against GEN[i]. -/
theorem test_generators_one_at_a_time :
    [0x0800000000, 0x1000000000, 0x2000000000, 0x4000000000, 0x8000000000].map (fun c => polyStep c 0) =
      [0x98f2bc8e61, 0x79b76d99e2, 0xf33e5fb3c4, 0xae2eabe2a8, 0x1e4f43e470] := by decide
/-- V4: the alphabet as the spec prints it, with the default for symbol 31. -/
theorem test_alphabet_string :
    (alphaTable State.reset.config).map (fun c => Char.ofNat c.toNat) = "qpzry9x8gf2tvdw0s3jn54khce6mua7l".toList := by decide
/-- V9: `convertBits([0xFF, 0x00], 8, 5, false)` is `[31, 28, 0, 0]`. -/
theorem test_convertBits : (convertBits [0xFF, 0x00] 8 5 false).toOption = some [31, 28, 0, 0] := by decide
/-- R128, R137: the version byte of a script hash of 20 bytes is 0x08, and bit 7 is not tested. -/
theorem test_version_byte : versionByte .scriptHash 0 = 0x08 ∧ typeOfVersion 0x80 = some .pubkeyHash := by decide
/-- R132: three parts are a wrong format, mixed case fails first. -/
theorem test_decode_address_host_checks :
    (match (decodeAddress [0x61, 0x3A, 0x62, 0x3A, 0x63] [] .reset).result with | .error e => some e | .ok _ => none) =
      some .invalidFormat ∧
    (match (decodeAddress [0x61, 0x3A, 0x42, 0x3A, 0x63] [] .reset).result with | .error e => some e | .ok _ => none) =
      some .mixedCase := by decide

/-! ## Witnesses: the hypotheses of the obligations are met -/

/-- A state in which both directions, a mode, flags and leftover bits are set, inside the invariant. -/
def busy : State := st 0x98f2bc8e61 0b1010101 7 true true 0b1010

/-- At the boundary of the invariant for `DIR` = 0: `BITS` = 4, `ACC` = 15. -/
def full5 : State := st 1 0b1111 4 false false 0

theorem witness_regrouperOk : regrouperOk State.reset = true ∧ regrouperOk busy = true ∧ regrouperOk full5 = true := by decide
theorem witness_StrictState : busy.strict = true ∧ full5.strict = false := by decide
theorem witness_BrokenState : ¬ ((st 1 0 5 false false 0).bits.toNat ≤ (if (st 1 0 5 false false 0).dir then 8 else 5) - 1 ∧
    (st 1 0 5 false false 0).acc.toNat < 2 ^ (st 1 0 5 false false 0).bits.toNat) := by decide
theorem witness_DecodedWordEncodesToItself : decode 0x3307 = .ok (.cget 7) := by decide
theorem witness_DecoderAgreesWithMaskAndMatch :
    (⟨"CGET", 0xFFF8, 0x3300⟩ : OpcodeRow) ∈ opcodeTable ∧ ((0x3307 : CmdWord) &&& 0xFFF8) = 0x3300 := by decide
theorem witness_ReservedBits :
    (formOfOp 0x01 = some .Z ∧ (0x80 : Byte) ≠ 0) ∧ (formOfOp 0x20 = some .M ∧ (0x04 : Byte).extractLsb' 2 6 ≠ 0) ∧
    (formOfOp 0x33 = some .K ∧ (0x08 : Byte).extractLsb' 3 5 ≠ 0) ∧ (formOfOp 0x02 = some .F ∧ (0x10 : Byte).extractLsb' 4 4 ≠ 0) := by
  decide
theorem witness_ReservedBitsPending :
    (State.reset.withFetchWord 16 0x0210).pending = .command (cmdWord 0x02 0x10) :: [] := by decide
theorem witness_IllegalWord : (∀ i, decode 0x3400 ≠ .ok i) ∧
    (State.reset.withFetchWord 16 0x3400).pending = .command 0x3400 :: [] := by
  refine ⟨fun i h => ?_, by decide⟩
  rw [show decode 0x3400 = .error (.unassignedOpcode 0x34) by decide] at h
  cases h
/-- The ends of the unassigned ranges of R61, and their neighbours, which are assigned. -/
theorem witness_UnassignedOpcodes :
    ([0x00, 0x04, 0x0F, 0x12, 0x1F, 0x23, 0x2F, 0x34, 0xFF] : List Byte).map formOfOp = List.replicate 9 none ∧
    (([0x01, 0x03, 0x10, 0x11, 0x20, 0x22, 0x30, 0x33] : List Byte).all fun op => (formOfOp op).isSome) = true := by decide
theorem witness_FormLegalArg : formOfOp 0x33 = some .K ∧ Form.K.legalArg 0x08 = false ∧ Form.K.legalArg 0x07 = true := by decide
theorem witness_StepRunsTheDecodedCommand :
    (State.reset.withFetchWord 16 0x3307).pending = .command 0x3307 :: [] ∧ decode 0x3307 = .ok (.cget 7) := by decide
theorem witness_HardReset : ({ busy with pending := [.reset] } : State).pending = .reset :: [] := by decide
theorem witness_NothingPending : busy.pending = [] := by decide
theorem witness_EveryStepKeepsTheInvariant : ∃ t, (busy.withFetchWord 16 0x2100).Inv ∧ step (busy.withFetchWord 16 0x2100) = .next t :=
  ⟨_, by unfold State.Inv; decide, rfl⟩
theorem witness_ExecNext : ∃ t, exec .rflush busy = .next t := ⟨_, rfl⟩
/-- A fault: strict RFLUSH with non-zero leftover bits, whose error code is not 0. -/
theorem witness_Fault : ∃ t, runWord 0x2200 busy = .next t ∧ t.responses = busy.responses ++ [0x30000000] ∧
    (0x30000000 : RspWord).extractLsb' 28 4 ≠ 0 := ⟨_, rfl, by decide, by decide⟩
/-- No fault: lenient RFLUSH with leftover bits. -/
theorem witness_NoFault : ∃ t, exec .rflush full5 = .next t ∧ t.responses = full5.responses ++ [0x0400001E] ∧
    (0x0400001E : RspWord).extractLsb' 28 4 = 0 := ⟨_, rfl, by decide, by decide⟩
/-- RDST, A2S, S2A and CGET without a fault. -/
theorem witness_ReadOnly : ∃ t, exec (.cget 7) busy = .next t ∧ t.responses = busy.responses ++ [0x04000000] ∧
    (0x04000000 : RspWord).extractLsb' 28 4 = 0 := ⟨_, rfl, by decide, by decide⟩
theorem witness_Idempotent : ∃ t, exec (.rinit 3) busy = .next t := ⟨_, rfl⟩
theorem witness_StickyFlags : Instr.csym 0x20 ≠ .rdst ∧ ∃ t, exec (.csym 0x20) busy = .next t := ⟨by decide, _, rfl⟩
/-- A flag cleared by each of the three events. -/
theorem witness_FlagCleared :
    (∃ t, step { busy with pending := [.reset] } = .next t ∧ busy.err.getLsbD 1 = true ∧ t.err.getLsbD 1 = false) ∧
    (∃ t, step (busy.withFetchWord 16 0x0300) = .next t ∧ t.err.getLsbD 3 = false) ∧
    (∃ t, step (busy.withFetchWord 16 0x0202) = .next t ∧ t.err.getLsbD 1 = false ∧ busy.err.getLsbD 3 = true) :=
  ⟨⟨_, rfl, by decide, by decide⟩, ⟨_, rfl, by decide⟩, ⟨_, rfl, by decide, by decide⟩⟩
theorem witness_DifferentUnits : unitOf (.a2s 0x62) ≠ 0 ∧ unitOf (.csym 3) ≠ 0 ∧ unitOf (.a2s 0x62) ≠ unitOf (.csym 3) ∧
    ∃ s₁ t, exec (.a2s 0x62) busy = .next s₁ ∧ exec (.csym 3) s₁ = .next t :=
  ⟨by decide, by decide, by decide, _, _, rfl, rfl⟩
theorem witness_EclrReserved : 0x10 ≤ (0x10 : Byte).toNat := by decide
/-- `Q` has a symbol after folding; `b` has none. -/
theorem witness_A2s : (if 0x41 ≤ (0x51 : Byte).toNat ∧ (0x51 : Byte).toNat ≤ 0x5A then (0x51 : Byte) + 0x20 else 0x51) = 0x71 ∧
    alphaOf Config.default 0 = 0x71 ∧ ∀ i : Symbol, alphaOf Config.default i ≠ 0x62 := by decide
theorem witness_A2s_high : 0x80 ≤ (0xFF : Byte).toNat := by decide
theorem witness_SymbolOperand : (31 : Byte).toNat ≤ 31 ∧ 31 < (32 : Byte).toNat := by decide
theorem witness_S2a : ([0x71] : List Byte)[(0 : Byte).toNat]? = some 0x71 ∧ (0 : Byte).toNat ≤ 31 := by decide
/-- `ALPHA31` as U3 asks: the default, another letter, a digit (no uppercase form) and, beyond log entry 7, an uppercase letter. -/
theorem witness_U3 : ∀ a ∈ ([0x6C, 0x6F, 0x31, 0x42] : List Byte), a.toNat < 0x80 ∧ foldCase a ∉ alphaPrinted := by decide
/-- A letter and a digit that are legal, for the two numbers of codes A2S accepts; neither is the default. -/
theorem witness_A2sCounts : regrouperOk (.resetWith ⟨0x6F⟩) = true ∧ legalConfig ⟨0x6F⟩ = true ∧ legalConfig ⟨0x31⟩ = true ∧
    55 = (if 0x61 ≤ (0x6F : Byte).toNat ∧ (0x6F : Byte).toNat ≤ 0x7A then 55 else 54) ∧
    54 = (if 0x61 ≤ (0x31 : Byte).toNat ∧ (0x31 : Byte).toNat ≤ 0x7A then 55 else 54) ∧ (0x6F : Byte) ≠ 0x6C := by decide
theorem witness_S2aAlpha31 : ¬ (0x41 ≤ (0x6C : Byte).toNat ∧ (0x6C : Byte).toNat ≤ 0x5A) ∧
    ([0x71, 0x6C] : List Byte)[(1 : Byte).toNat]? = some 0x6C := by decide
theorem witness_A2sThenS2a : ∃ t, exec (.a2s 0x51) State.reset = .next t ∧
    t.responses = State.reset.responses ++ [0x04000000 ||| (0 : Symbol).setWidth 32] := ⟨_, rfl, by decide⟩
/-- Two states of one block that differ in every register, for the clause of R79 that none is read. -/
theorem witness_TwoStates : regrouperOk State.reset = true ∧ regrouperOk busy = true ∧ State.reset.config = busy.config ∧
    State.reset.chk ≠ busy.chk ∧ State.reset.acc ≠ busy.acc ∧ State.reset.bits ≠ busy.bits ∧ State.reset.dir ≠ busy.dir ∧
    State.reset.strict ≠ busy.strict ∧ State.reset.err ≠ busy.err := by decide
theorem witness_AddressAlpha31 : legalConfig State.reset.config = true ∧ State.reset.config.alpha31 ≠ 0x3A ∧
    busy.config = State.reset.config ∧ legalConfig ⟨0x3A⟩ = true := by decide
theorem witness_legalConfig : legalConfig Config.default = true ∧ legalConfig ⟨0x6F⟩ = true ∧ legalConfig ⟨0x4C⟩ = false := by decide
theorem witness_symbolOf : symbolOf Config.default 0x4C = some 31 := by decide
theorem witness_RinitReserved : 3 < (4 : Byte).toNat := by decide
/-- The widths, the bit string and the count at the top of each direction; then the widest value that fits and the first that does not. -/
theorem witness_Rpush :
    (8 = (if full5.dir then 5 else 8) ∧ 5 = (if full5.dir then 8 else 5) ∧ 15 * 2 ^ 8 + 255 = full5.acc.toNat * 2 ^ 8 + (255 : Byte).toNat ∧
      12 = full5.bits.toNat + 8 ∧ (255 : Byte).toNat < 2 ^ 8) ∧
    (5 = (if busy.dir then 5 else 8) ∧ 8 = (if busy.dir then 8 else 5) ∧ (31 : Byte).toNat < 2 ^ 5 ∧ 2 ^ 5 ≤ (32 : Byte).toNat) := by
  decide
/-- The three clauses of RFLUSH. -/
theorem witness_Rflush :
    full5.strict = false ∧
    (busy.strict = true ∧ ((if busy.dir then 5 else 8) ≤ busy.bits.toNat ∨ busy.acc ≠ 0)) ∧
    (regrouperOk (st 1 0 4 true true 0) = true ∧ (st 1 0 4 true true 0).strict = true ∧
      ¬ ((if (st 1 0 4 true true 0).dir then 5 else 8) ≤ (st 1 0 4 true true 0).bits.toNat ∨ (st 1 0 4 true true 0).acc ≠ 0)) := by
  decide
/-- V11: a strict conversion that succeeds. -/
theorem witness_StrictConversion : (convertBits (([31, 28, 0, 0] : List Symbol).map BitVec.toNat) 5 8 true).toOption = some [0xFF, 0x00] := by
  decide
theorem witness_CpfxAlike : (0x61 : Byte) &&& 0x1F = 0x41 &&& 0x1F := by decide
theorem witness_Cget : 7 < (8 : Byte).toNat ∧ (6 : BitVec 3) ≠ 7 := by decide
theorem witness_ZeroFlag : ∃ t, exec .rdst State.reset = .next t ∧ t.responses = State.reset.responses ++ [0x08000020] :=
  ⟨_, rfl, by decide⟩
/-- `bitcoincash` is a plain prefix, and so is a text of alphabet characters; 20 bytes are a hash. -/
theorem witness_Address :
    plainPre [0x62, 0x69, 0x74, 0x63, 0x6F, 0x69, 0x6E, 0x63, 0x61, 0x73, 0x68] = true ∧ plainPre [0x71, 0x71] = true ∧
    (List.replicate 20 (0 : Byte)).length ∈ [20, 24, 28, 32, 40, 48, 56, 64] ∧
    ([] : List Byte).length ∉ [20, 24, 28, 32, 40, 48, 56, 64] := by decide
/-- Whether a call has a result so far. -/
def succeeded {α : Type} (c : Call α) : Bool := c.result.toBool

theorem exists_of_succeeded {α : Type} {c : Call α} (h : succeeded c = true) : ∃ a, c.result = .ok a := by
  rcases c with ⟨_ | a, s⟩
  · cases h
  · exact ⟨a, rfl⟩

/-- The first two stages of the encode of V30, without its prefix. -/
def encodeStages : Call (List Byte) :=
  (issueAll (conversionCommands 0 (versionByte .pubkeyHash 0 :: List.replicate 20 0)) .reset).andThen
    fun payload s => issueAll (generationCommands [] payload) s

/-- The calls of V30 and of a text of eight `q` reach the stages the statement on the host's rules speaks of. -/
theorem witness_EncodeStages : sizeCode ((List.replicate 20 (0 : Byte)).length * 8) = some 0 ∧
    ∃ payload check s₁ s₂, issueAll (conversionCommands 0 (versionByte .pubkeyHash 0 :: List.replicate 20 0)) .reset = ⟨.ok payload, s₁⟩ ∧
      issueAll (generationCommands [] payload) s₁ = ⟨.ok check, s₂⟩ := by
  have run : succeeded encodeStages = true := by decide +kernel
  obtain ⟨check, h⟩ := exists_of_succeeded run
  obtain ⟨payload, h₁, h₂⟩ := Call.andThen_result_ok.mp h
  exact ⟨by decide, payload, check, _, _, congrArg (Call.mk · _) h₁, congrArg (Call.mk · _) h₂⟩
theorem witness_DecodeStages : ∃ symbols s₁, issueAll ((List.replicate 8 (0x71 : Byte)).map .a2s) .reset = ⟨.ok symbols, s₁⟩ ∧
    8 ≤ symbols.length := ⟨_, _, rfl, by decide⟩
theorem witness_HostMisuse : Watch.start.conversion = .closed ∧ Watch.start.checksum = .closed ∧
    (Watch.start.next (.rinit 0) .ok0).bind (fun w => w.next (.rpush 0xFF) (.error .invalidArgument)) = some ⟨.failed, .closed⟩ ∧
    (Response.ok1 0x1F).isOk = true := by decide
/-- Log entry 13: any RDST counts as a possible last read of the checksum (R177), so a CINIT may follow it; after more input it may not. -/
theorem test_watch_any_read_may_be_last :
    disciplined Watch.start [(.cinit, .ok0), (.rdst, .ok0), (.cinit, .ok0)] = true ∧
    disciplined Watch.start [(.cinit, .ok0), (.rdst, .ok0), (.csym 0, .ok0), (.cinit, .ok0)] = false := by decide

/-- R173 (c) by SRST: before RINIT it is accepted, after it a new RINIT is needed. The model's choice, log entry 13. -/
theorem test_watch_srst_before_init :
    disciplined Watch.start [(.srst, .ok0), (.rinit 0, .ok0), (.rpush 0, .ok1 0), (.rflush, .ok1 0)] = true ∧
    disciplined Watch.start [(.rinit 0, .ok0), (.srst, .ok0), (.rpush 0, .ok1 0), (.rflush, .ok1 0)] = false := by decide

/-- A host that resets in mid-conversion is accepted: the model's choice, log entry 13. -/
theorem test_watch_accepts_srst : Watch.next ⟨.running, .running⟩ .srst .ok0 = some Watch.start := by decide

end Sys2Proof.Tests
end

section
/-! ## The block's scope: every event completes, programs run in order, `ALPHA31` stays

What a command word leaves on the ports, said once over all twelve commands (`exec_answers`); that a command does not look at the
host's later events (`exec_withPending`); one equation of `step` per event; then the statements on the step. -/

namespace Sys2Proof.Machine

/-! ### One equation of `step` and `runWord` per case -/

theorem step_of_idle {s : State} (h : s.pending = []) : step s = .next s := by
  simp only [step, h, idle]

theorem step_of_reset {s : State} {rest : List HostEvent} (h : s.pending = .reset :: rest) :
    step s = .next (resetRegisters { s with pending := rest }) := by
  simp only [step, h, hardReset]

theorem step_of_command {s : State} {w : CmdWord} {rest : List HostEvent} (h : s.pending = .command w :: rest) :
    step s = runWord w { s with pending := rest } := by
  simp only [step, h]

theorem runWord_of_decode_ok {w : CmdWord} {i : Instr} (h : decode w = .ok i) (s : State) : runWord w s = exec i s := by
  simp only [runWord, h]

theorem runWord_of_decode_error {w : CmdWord} {e : Illegal} (h : decode w = .error e) (s : State) :
    runWord w s = raise .illegalCommand s := by
  simp only [runWord, h, execIllegal]

/-- The word a command encodes to decodes to it (R55, R59): the opcode picks the arm, and the operand comes back out of `arg`. -/
theorem decode_encode (i : Instr) : decode (encode i) = .ok i := by
  cases i <;> simp only [decode, encode, opField_cmdWord, argField_cmdWord, Instr.op, Instr.arg]
  case eclr f => exact decodeF_ok.mpr (by revert f; decide)
  case rinit m => exact decodeM_ok.mpr (by revert m; decide)
  case cget k => exact decodeK_ok.mpr (by revert k; decide)
  all_goals rfl

/-! ### What a command word leaves on the ports -/

/-- `t` is what one command word leaves of `s`: one response after all earlier ones, the host's later events and `ALPHA31`
untouched, the regrouper invariant kept. -/
structure AnsweredOnce (s t : State) : Prop where
  pending : t.pending = s.pending
  responses : ∃ r, t.responses = s.responses ++ [r]
  config : t.config = s.config
  inv : s.Inv → t.Inv

/-- Where a result is a next state, it is what one command word leaves. -/
def AnswersOnce (s : State) (r : Result) : Prop := ∀ t, r = .next t → AnsweredOnce s t

theorem answersOnce_finish (c : Response) {s u : State} (hp : u.pending = s.pending) (hr : u.responses = s.responses)
    (hc : u.config = s.config) (hi : s.Inv → u.Inv) : AnswersOnce s (finish c u) := by
  rintro _ ⟨⟩
  exact ⟨hp, ⟨responseWord c, by rw [respond_responses, hr]⟩, hc, hi⟩

theorem answersOnce_raise (k : FaultKind) (s : State) : AnswersOnce s (raise k s) := by
  rintro _ ⟨⟩
  exact ⟨rfl, ⟨_, rfl⟩, rfl, id⟩

/-- The guard only refuses, so a guarded command need only be looked at without it. -/
theorem answersOnce_whenRegrouperOk {s : State} {r : Result} (h : AnswersOnce s r) :
    AnswersOnce s (whenRegrouperOk s r) :=
  fun t ht => h t (whenRegrouperOk_next.mp ht).2

/-- Under the invariant the count the loop of `RPUSH` leaves is below the output width (R88). -/
theorem pushOutputs_count_lt {s : State} (h : s.Inv) (v : Byte) : (pushOutputs v s).2 < toWidth s.dir := by
  rw [pushOutputs, (emitWhole_two _ _ _ (pushCount_lt h)).1]
  exact Nat.mod_lt _ (by rcases toWidth_cases s.dir with hw | hw <;> omega)

/-- Whatever the command and the state, a next state `exec` answers has one more response. -/
theorem exec_answers (i : Instr) (s : State) : AnswersOnce s (exec i s) := by
  cases i <;> refine answersOnce_whenRegrouperOk ?_
  case rinit | srst =>
    exact answersOnce_finish _ rfl rfl rfl fun _ => regrouperOk_of_empty rfl rfl
  case rpush v =>
    split
    · exact answersOnce_raise _ _
    · exact answersOnce_finish _ rfl rfl rfl fun hs => regrouperOk_withLeftover _ _ _ (pushOutputs_count_lt hs v)
  case rflush =>
    have hempty : (emptied s).Inv := regrouperOk_of_empty rfl rfl
    split
    · split
      · exact answersOnce_raise _ _
      · exact answersOnce_finish _ rfl rfl rfl fun _ => hempty
    · exact answersOnce_finish _ rfl rfl rfl fun _ => hempty
  case a2s | s2a | csym =>
    split
    · exact answersOnce_finish _ rfl rfl rfl id
    · exact answersOnce_raise _ _
  case rdst | eclr | cinit | cpfx | cget => exact answersOnce_finish _ rfl rfl rfl id

/-- The same for every one of the 65536 words, an illegal one among them (R61). -/
theorem runWord_answers (w : CmdWord) (s : State) : AnswersOnce s (runWord w s) := by
  cases h : decode w with
  | ok i => rw [runWord_of_decode_ok h]; exact exec_answers i s
  | error e => rw [runWord_of_decode_error h]; exact answersOnce_raise _ s

/-- Where the invariant holds a command word completes (R181). -/
theorem runWord_completes (w : CmdWord) {s : State} (h : s.Inv) : ∃ t, runWord w s = .next t := by
  cases hw : decode w with
  | ok i =>
    obtain ⟨c, u, hu, -⟩ := exec_endsWith i h
    exact ⟨_, (runWord_of_decode_ok hw s).trans hu⟩
  | error e => exact ⟨_, runWord_of_decode_error hw s⟩

/-- Whatever the host's event, a step leaves the block its `ALPHA31` (R32). -/
theorem step_config {s t : State} (h : step s = .next t) : t.config = s.config := by
  match hp : s.pending with
  | [] => cases (step_of_idle hp).symm.trans h; rfl
  | .reset :: rest => cases (step_of_reset hp).symm.trans h; rfl
  | .command w :: rest => exact (runWord_answers w _ t ((step_of_command hp).symm.trans h)).config

/-! ### A command does not look at the host's later events -/

/-- `s` with other events to come. -/
def State.withPending (p : List HostEvent) (s : State) : State := { s with pending := p }

/-- A result with other events to come. -/
def resultWithPending (p : List HostEvent) : Result → Result
  | .next t => .next (t.withPending p)
  | .fault f => .fault f
  | .refused r => .refused r

@[simp] theorem withPending_config (p : List HostEvent) (s : State) : (s.withPending p).config = s.config := rfl

@[simp] theorem regrouperOk_withPending (p : List HostEvent) (s : State) : regrouperOk (s.withPending p) = regrouperOk s := rfl

/-- The guard reads no event, so a guarded command commutes with them when its body does. -/
theorem whenRegrouperOk_withPending {p : List HostEvent} {s : State} {r r' : Result} (h : r' = resultWithPending p r) :
    whenRegrouperOk (s.withPending p) r' = resultWithPending p (whenRegrouperOk s r) := by
  subst h
  cases hok : regrouperOk s
  · rw [whenRegrouperOk_of_not hok, whenRegrouperOk_of_not (by simpa using hok)]
    rfl
  · rw [whenRegrouperOk_of_ok hok, whenRegrouperOk_of_ok (by simpa using hok)]

/-- A command run with other events to come leaves the same but for them. -/
theorem exec_withPending (i : Instr) (p : List HostEvent) (s : State) :
    exec i (s.withPending p) = resultWithPending p (exec i s) := by
  cases i <;> refine whenRegrouperOk_withPending ?_
  case a2s c => rw [withPending_config]; cases symbolOf s.config c <;> rfl
  case s2a v | csym v => cases operandSymbol v <;> rfl
  case rpush v => rw [apply_ite (resultWithPending p)]; rfl
  case rflush => rw [apply_ite (resultWithPending p), apply_ite (resultWithPending p)]; rfl
  all_goals rfl

/-! ### Running a list of commands from the port (R14) -/

/-- With a command's word first on the port, one step is that command with the rest of the port behind it. -/
theorem step_withPending_encode (i : Instr) (rest : List HostEvent) (s : State) :
    step (s.withPending (.command (encode i) :: rest)) = resultWithPending rest (exec i s) := by
  rw [step_of_command rfl, runWord_of_decode_ok (decode_encode i)]
  exact exec_withPending i rest s

theorem core_run_succ_of_next {s t : State} (h : step s = .next t) (k : Nat) : core.run (k + 1) s = core.run k t := by
  have hcore : core.step s = .next t := h
  simp only [Host.Core.run, hcore]

theorem core_run_succ_of_refused {s : State} {r : Refusal} (h : step s = .refused r) (k : Nat) :
    core.run (k + 1) s = .refused r := by
  have hcore : core.step s = .refused r := h
  simp only [Host.Core.run, hcore]

theorem runCommands_cons_of_next {i : Instr} {s t : State} (h : exec i s = .next t) (is : List Instr) :
    runCommands (i :: is) s = runCommands is t := by
  rw [runCommands, h]

theorem runCommands_cons_of_refused {i : Instr} {s : State} {r : Refusal} (h : exec i s = .refused r) (is : List Instr) :
    runCommands (i :: is) s = .refused r := by
  rw [runCommands, h]

/-- The host's events that issue a list of commands in order (R14). -/
def programEvents (is : List Instr) : List HostEvent := is.map fun i => .command (encode i)

/-- By induction on the commands: the first step takes the first word off the port, and leaves the port the induction hypothesis
speaks of, because no command writes it. -/
theorem core_run_programEvents (is : List Instr) (s : State) :
    core.run is.length (s.withPending (programEvents is ++ s.pending)) = runCommands is s := by
  induction is generalizing s with
  | nil => rfl
  | cons i is ih =>
    have hstep : step (s.withPending (programEvents (i :: is) ++ s.pending)) =
        resultWithPending (programEvents is ++ s.pending) (exec i s) := step_withPending_encode i _ s
    cases hexec : exec i s with
    | next t =>
      have hport : t.pending = s.pending := (exec_answers i s t hexec).pending
      rw [hexec] at hstep
      rw [List.length_cons, core_run_succ_of_next hstep, runCommands_cons_of_next hexec, ← hport]
      exact ih t
    | fault f => cases f
    | refused r =>
      rw [hexec] at hstep
      exact (core_run_succ_of_refused hstep is.length).trans (runCommands_cons_of_refused hexec is).symm

/-! ### The statements -/

/-- Settles O9: the port's first word is decoded and executed with the rest left on the port. -/
theorem stepRunsTheDecodedCommand : Obligations.StepRunsTheDecodedCommand := by
  refine ⟨fun s w rest i hp hd => (step_of_command hp).trans (runWord_of_decode_ok hd _), fun s i => ?_⟩
  have hword : BitVec.ofNat 16 ((encode i).toNat % 2 ^ 16) = encode i := by
    rw [Nat.mod_eq_of_lt (encode i).isLt, BitVec.ofNat_toNat, BitVec.setWidth_eq]
  rw [State.withFetchWord, hword, step_of_command rfl, runWord_of_decode_ok (decode_encode i)]

/-- Settles O15: by the host's next event; the guard of a command is met by the invariant. -/
theorem everyEventCompletesWithOneResponse : Obligations.EveryEventCompletesWithOneResponse := by
  intro s hs
  match hp : s.pending with
  | [] => exact ⟨s, step_of_idle hp, hs, rfl, by simp, by simp⟩
  | .reset :: rest =>
    refine ⟨_, step_of_reset hp, regrouperOk_of_empty rfl rfl, rfl, by simp, fun rest' h => ?_⟩
    obtain ⟨-, rfl⟩ := List.cons.inj h
    exact ⟨rfl, rfl⟩
  | .command w :: rest =>
    obtain ⟨t, ht⟩ := runWord_completes w (s := { s with pending := rest }) hs
    obtain ⟨hpending, hresponses, hconfig, hinv⟩ := runWord_answers w _ t ht
    refine ⟨t, (step_of_command hp).trans ht, hinv hs, hconfig, fun w' rest' h => ?_, by simp⟩
    obtain ⟨-, rfl⟩ := List.cons.inj h
    exact ⟨hpending, hresponses⟩

/-- Settles O17: the words of the commands, put before what the host does later, run as the commands. -/
theorem stepsRunTheProgram : Obligations.StepsRunTheProgram := core_run_programEvents

/-- Settles O55: no case of the step writes `config` (`step_config`), and the table is a function of it. -/
theorem noStepChangesTheAlphabet : Obligations.NoStepChangesTheAlphabet :=
  ⟨rfl, fun _ _ h => ⟨step_config h, congrArg alphaTable (step_config h)⟩, fun _ => ⟨rfl, rfl, rfl, rfl, rfl, rfl, rfl⟩⟩

end Sys2Proof.Machine
end

section
/-! ## The block's state: the invariant, the reset values and the frame of every command

What a command may write, said once over all twelve (`Writes`, `exec_writes`), and which registers its effect depends on
(`exec_runsAlike` for the three units, `exec_withErr` for `ERR`); then the statements on the registers, the flags and `CGET`. -/

namespace Sys2Proof.Machine

/-! ### The regrouper invariant (R25) -/

/-- The model's check in R25's own terms: `to` is at least 1, so below `to` is at most `to - 1`. -/
theorem inv_iff (s : State) :
    s.Inv ↔ s.bits.toNat ≤ (if s.dir then 8 else 5) - 1 ∧ s.acc.toNat < 2 ^ s.bits.toNat := by
  have hto : 0 < toWidth s.dir := by rcases toWidth_cases s.dir with hw | hw <;> omega
  rw [State.Inv, regrouperOk, Bool.and_eq_true, decide_eq_true_eq, decide_eq_true_eq]
  exact and_congr_left' (Nat.lt_iff_le_pred hto)

/-- Each of the twelve commands is guarded by the invariant, so it answers a next state only where that holds. -/
theorem inv_of_exec_next {i : Instr} {s t : State} (h : exec i s = .next t) : s.Inv := by
  cases i <;> exact (whenRegrouperOk_next.mp h).1

theorem exec_of_not_inv (i : Instr) {s : State} (h : ¬ s.Inv) : exec i s = .refused .regrouperInvariantBroken := by
  cases i <;> exact whenRegrouperOk_of_not (Bool.eq_false_iff.mpr h) _

/-- Where the invariant holds a command answers a next state. -/
theorem exec_completes (i : Instr) {s : State} (h : s.Inv) : ∃ t, exec i s = .next t := by
  obtain ⟨c, u, hu, -⟩ := exec_endsWith i h
  exact ⟨_, hu⟩

/-! Where the invariant holds, what these commands leave: none of the six can fault. -/

section Completes
variable {s : State} (h : s.Inv)
include h

theorem exec_rdst : exec .rdst s = .next (respond (.ok2 ((status s).extractLsb' 0 8) ((status s).extractLsb' 8 8)) s) :=
  whenRegrouperOk_of_ok h _

theorem exec_eclr (f : BitVec 4) : exec (.eclr f) s = .next (respond .ok0 { s with err := s.err &&& ~~~f }) :=
  whenRegrouperOk_of_ok h _

theorem exec_srst : exec .srst s = .next (respond .ok0 (resetRegisters s)) :=
  whenRegrouperOk_of_ok h _

theorem exec_rinit (m : BitVec 2) :
    exec (.rinit m) s =
      .next (respond .ok0 { s with dir := operandDir m, strict := operandStrict m, acc := 0, bits := 0 }) :=
  whenRegrouperOk_of_ok h _

theorem exec_cinit : exec .cinit s = .next (respond .ok0 { s with chk := 1 }) :=
  whenRegrouperOk_of_ok h _

theorem exec_cget (k : BitVec 3) :
    exec (.cget k) s = .next (respond (.ok1 ((checksumSymbol (s.chk ^^^ 1) k).setWidth 8)) s) :=
  whenRegrouperOk_of_ok h _

end Completes

theorem step_inv {s t : State} (hs : s.Inv) (h : step s = .next t) : t.Inv := by
  match hp : s.pending with
  | [] => cases (step_of_idle hp).symm.trans h; exact hs
  | .reset :: rest => cases (step_of_reset hp).symm.trans h; exact regrouperOk_of_empty rfl rfl
  | .command w :: rest => exact (runWord_answers w _ t ((step_of_command hp).symm.trans h)).inv hs

/-! ### The reset values (R35) -/

theorem sameRegisters_resetRegisters (s : State) : SameRegisters (resetRegisters s) State.reset :=
  ⟨rfl, rfl, rfl, rfl, rfl, rfl⟩

theorem zFlag_resetRegisters (s : State) : zFlag (resetRegisters s) = true := rfl

theorem status_resetRegisters (s : State) : status (resetRegisters s) = 0x0020 := by simp [status, zFlag]

/-! ### What a command may write (R37) -/

/-- The commands that can end in a fault (R77, R78, R88, R89, R104). -/
def canFault : Instr → Bool
  | .a2s _ | .s2a _ | .rpush _ | .rflush | .csym _ => true
  | _ => false

/-- `Writes s i u`: as far as registers go, the command `i` may turn `s` into `u`. Any command may leave `s` as it is. -/
inductive Writes (s : State) : Instr → State → Prop
  | nothing (i : Instr) : Writes s i s
  | flag (i : Instr) (k : FaultKind) (h : canFault i = true) : Writes s i (withFlag k s)
  | eclr (f : BitVec 4) : Writes s (.eclr f) { s with err := s.err &&& ~~~f }
  | srst : Writes s .srst (resetRegisters s)
  | rinit (m : BitVec 2) (dir strict : Bool) : Writes s (.rinit m) { s with dir, strict, acc := 0, bits := 0 }
  | rpush (v : Byte) (acc : BitVec 7) (bits : BitVec 3) : Writes s (.rpush v) { s with acc, bits }
  | rflush : Writes s .rflush (emptied s)
  | cinit : Writes s .cinit { s with chk := chkInit }
  | csym (v : Byte) (chk : ChkWord) : Writes s (.csym v) { s with chk }
  | cpfx (c : Byte) (chk : ChkWord) : Writes s (.cpfx c) { s with chk }

/-- Where a result is a next state, it is one response delivered on a state the command may write. -/
def WritesOnly (s : State) (i : Instr) (r : Result) : Prop := ∀ t, r = .next t → ∃ c u, Writes s i u ∧ t = respond c u

theorem writesOnly_finish (c : Response) {i : Instr} {s u : State} (h : Writes s i u) : WritesOnly s i (finish c u) := by
  rintro _ ⟨⟩
  exact ⟨c, u, h, rfl⟩

theorem writesOnly_raise (k : FaultKind) {i : Instr} (s : State) (h : canFault i = true) :
    WritesOnly s i (raise k s) := by
  rintro _ ⟨⟩
  exact ⟨_, _, .flag i k h, rfl⟩

theorem writesOnly_whenRegrouperOk {i : Instr} {s : State} {r : Result} (h : WritesOnly s i r) :
    WritesOnly s i (whenRegrouperOk s r) :=
  fun t ht => h t (whenRegrouperOk_next.mp ht).2

/-- What each of the twelve commands may write. -/
theorem exec_writes (i : Instr) (s : State) : WritesOnly s i (exec i s) := by
  cases i <;> refine writesOnly_whenRegrouperOk ?_
  case rdst | cget => exact writesOnly_finish _ (.nothing _)
  case eclr f => exact writesOnly_finish _ (.eclr f)
  case srst => exact writesOnly_finish _ .srst
  case a2s | s2a =>
    split
    · exact writesOnly_finish _ (.nothing _)
    · exact writesOnly_raise _ s rfl
  case rinit m => exact writesOnly_finish _ (.rinit m _ _)
  case rpush v =>
    split
    · exact writesOnly_raise _ s rfl
    · exact writesOnly_finish _ (.rpush v _ _)
  case rflush =>
    split
    · split
      · exact writesOnly_raise _ s rfl
      · exact writesOnly_finish _ .rflush
    · exact writesOnly_finish _ .rflush
  case cinit => exact writesOnly_finish _ .cinit
  case csym v =>
    split
    · exact writesOnly_finish _ (.csym v _)
    · exact writesOnly_raise _ s rfl
  case cpfx c => exact writesOnly_finish _ (.cpfx c _)

section Writes
variable {i : Instr} {s u : State} (h : Writes s i u)
include h

theorem Writes.chk (hsrst : i ≠ .srst) (hcinit : i ≠ .cinit) (hcsym : ∀ v, i ≠ .csym v) (hcpfx : ∀ c, i ≠ .cpfx c) :
    u.chk = s.chk := by
  cases h with
  | srst => exact absurd rfl hsrst
  | cinit => exact absurd rfl hcinit
  | csym v => exact absurd rfl (hcsym v)
  | cpfx c => exact absurd rfl (hcpfx c)
  | _ => rfl

theorem Writes.leftover (hsrst : i ≠ .srst) (hrinit : ∀ m, i ≠ .rinit m) (hrpush : ∀ v, i ≠ .rpush v)
    (hrflush : i ≠ .rflush) : u.acc = s.acc ∧ u.bits = s.bits := by
  cases h with
  | srst => exact absurd rfl hsrst
  | rinit m => exact absurd rfl (hrinit m)
  | rpush v => exact absurd rfl (hrpush v)
  | rflush => exact absurd rfl hrflush
  | _ => exact ⟨rfl, rfl⟩

theorem Writes.mode (hsrst : i ≠ .srst) (hrinit : ∀ m, i ≠ .rinit m) : u.dir = s.dir ∧ u.strict = s.strict := by
  cases h with
  | srst => exact absurd rfl hsrst
  | rinit m => exact absurd rfl (hrinit m)
  | _ => exact ⟨rfl, rfl⟩

/-- `ERR` loses flags in `SRST` and `ECLR` only, and gains at most one, in a command that can fault (R28). -/
theorem Writes.err (hsrst : i ≠ .srst) (heclr : ∀ f, i ≠ .eclr f) :
    u.err = s.err ∨ canFault i = true ∧ ∃ k, u.err = s.err ||| faultFlag k := by
  cases h with
  | srst => exact absurd rfl hsrst
  | eclr f => exact absurd rfl (heclr f)
  | flag _ k hk => exact .inr ⟨hk, k, rfl⟩
  | _ => exact .inl rfl

end Writes

/-- The commands that cannot fault, as R37 leaves them: all but the five. -/
theorem canFault_eq_false {i : Instr} (ha2s : ∀ c, i ≠ .a2s c) (hs2a : ∀ v, i ≠ .s2a v) (hrpush : ∀ v, i ≠ .rpush v)
    (hrflush : i ≠ .rflush) (hcsym : ∀ v, i ≠ .csym v) : canFault i = false := by
  cases i with
  | a2s c => exact absurd rfl (ha2s c)
  | s2a v => exact absurd rfl (hs2a v)
  | rpush v => exact absurd rfl (hrpush v)
  | rflush => exact absurd rfl hrflush
  | csym v => exact absurd rfl (hcsym v)
  | _ => rfl

/-! ### When a sticky flag falls (R28) -/

/-- The word a command was decoded from is the word it encodes to: the reserved bits are 0 (R59, R60). -/
theorem encode_of_decode {w : CmdWord} {i : Instr} (h : decode w = .ok i) : encode i = w := by
  have legal2 : ∀ a : Byte, a.extractLsb' 2 6 = 0 → (a.extractLsb' 0 2).setWidth 8 = a := by decide
  have legal3 : ∀ a : Byte, a.extractLsb' 3 5 = 0 → (a.extractLsb' 0 3).setWidth 8 = a := by decide
  have legal4 : ∀ a : Byte, a.extractLsb' 4 4 = 0 → (a.extractLsb' 0 4).setWidth 8 = a := by decide
  suffices hfields : i.op = opField w ∧ i.arg = argField w by
    obtain ⟨hop, harg⟩ := hfields
    rw [encode, hop, harg, cmdWord_fields]
  simp only [decode] at h
  generalize opField w = op, argField w = arg at h ⊢
  split at h -- one case per row of R62, in its order; the last is an unassigned opcode
  case h_2 hop =>
    obtain ⟨harg, rfl⟩ := decodeF_ok.mp h
    exact ⟨(BitVec.eq_of_toNat_eq hop).symm, legal4 arg harg⟩
  case h_6 hop =>
    obtain ⟨harg, rfl⟩ := decodeM_ok.mp h
    exact ⟨(BitVec.eq_of_toNat_eq hop).symm, legal2 arg harg⟩
  case h_12 hop =>
    obtain ⟨harg, rfl⟩ := decodeK_ok.mp h
    exact ⟨(BitVec.eq_of_toNat_eq hop).symm, legal3 arg harg⟩
  case h_1 hop | h_3 hop | h_8 hop | h_9 hop =>
    obtain ⟨rfl, rfl⟩ := decodeZ_ok.mp h
    exact ⟨(BitVec.eq_of_toNat_eq hop).symm, rfl⟩
  case h_4 hop | h_5 hop | h_7 hop | h_10 hop | h_11 hop =>
    cases h
    exact ⟨(BitVec.eq_of_toNat_eq hop).symm, rfl⟩
  case h_13 => cases h

/-- A flag set before a command and clear after it was cleared by `SRST` or by an `ECLR` with its bit. -/
theorem exec_clears_flag {i : Instr} {s t : State} {b : Nat} (h : exec i s = .next t) (hs : s.err.getLsbD b = true)
    (ht : t.err.getLsbD b = false) : i = .srst ∨ ∃ f : BitVec 4, f.getLsbD b = true ∧ i = .eclr f := by
  obtain ⟨c, u, hw, rfl⟩ := exec_writes i s t h
  rw [respond_err] at ht
  cases hw with
  | srst => exact .inl rfl
  | eclr f =>
    rw [BitVec.getLsbD_and, BitVec.getLsbD_not] at ht
    exact .inr ⟨f, by simpa [hs, BitVec.lt_of_getLsbD hs] using ht, rfl⟩
  | _ => simp [hs] at ht

/-! ### The unit of each command (R62) -/

@[simp] theorem unitOf_rdst : unitOf .rdst = 0 := by simp [unitOf, Instr.op]
@[simp] theorem unitOf_eclr (f : BitVec 4) : unitOf (.eclr f) = 0 := by simp [unitOf, Instr.op]
@[simp] theorem unitOf_srst : unitOf .srst = 0 := by simp [unitOf, Instr.op]
@[simp] theorem unitOf_a2s (c : Byte) : unitOf (.a2s c) = 1 := by simp [unitOf, Instr.op]
@[simp] theorem unitOf_s2a (v : Byte) : unitOf (.s2a v) = 1 := by simp [unitOf, Instr.op]
@[simp] theorem unitOf_rinit (m : BitVec 2) : unitOf (.rinit m) = 2 := by simp [unitOf, Instr.op]
@[simp] theorem unitOf_rpush (v : Byte) : unitOf (.rpush v) = 2 := by simp [unitOf, Instr.op]
@[simp] theorem unitOf_rflush : unitOf .rflush = 2 := by simp [unitOf, Instr.op]
@[simp] theorem unitOf_cinit : unitOf .cinit = 3 := by simp [unitOf, Instr.op]
@[simp] theorem unitOf_csym (v : Byte) : unitOf (.csym v) = 3 := by simp [unitOf, Instr.op]
@[simp] theorem unitOf_cpfx (c : Byte) : unitOf (.cpfx c) = 3 := by simp [unitOf, Instr.op]
@[simp] theorem unitOf_cget (k : BitVec 3) : unitOf (.cget k) = 3 := by simp [unitOf, Instr.op]

/-! ### A unit's commands depend on the unit's registers only (R37) -/

/-- Two states agree on the registers of a unit: the regrouper's four, the checksum, none for the alphabet (R20, R37). -/
structure SameOn (u : BitVec 4) (s t : State) : Prop where
  regrouper : u = 2 → t.acc = s.acc ∧ t.bits = s.bits ∧ t.dir = s.dir ∧ t.strict = s.strict
  checksum : u = 3 → t.chk = s.chk

theorem SameOn.symm {u : BitVec 4} {s t : State} (h : SameOn u s t) : SameOn u t s := by
  refine ⟨fun hu => ?_, fun hu => (h.checksum hu).symm⟩
  obtain ⟨ha, hb, hd, hs⟩ := h.regrouper hu
  exact ⟨ha.symm, hb.symm, hd.symm, hs.symm⟩

theorem SameOn.trans {u : BitVec 4} {s t v : State} (h : SameOn u s t) (h' : SameOn u t v) : SameOn u s v := by
  refine ⟨fun hu => ?_, fun hu => (h'.checksum hu).trans (h.checksum hu)⟩
  obtain ⟨ha, hb, hd, hs⟩ := h.regrouper hu
  obtain ⟨ha', hb', hd', hs'⟩ := h'.regrouper hu
  exact ⟨ha'.trans ha, hb'.trans hb, hd'.trans hd, hs'.trans hs⟩

theorem SameOn.of_regrouper {s t : State} (ha : t.acc = s.acc) (hb : t.bits = s.bits) (hd : t.dir = s.dir)
    (hs : t.strict = s.strict) : SameOn 2 s t := ⟨fun _ => ⟨ha, hb, hd, hs⟩, by simp⟩

theorem SameOn.of_checksum {s t : State} (h : t.chk = s.chk) : SameOn 3 s t := ⟨by simp, fun _ => h⟩

/-- A unit's command leaves the registers of the other units alone. -/
theorem exec_sameOn_of_ne {i : Instr} {s t : State} {u : BitVec 4} (hi : unitOf i ≠ 0) (hu : u ≠ unitOf i)
    (h : exec i s = .next t) : SameOn u s t := by
  obtain ⟨c, v, hw, rfl⟩ := exec_writes i s t h
  cases hw with
  | eclr | srst => simp at hi
  | rinit | rpush | rflush => exact ⟨fun h2 => absurd h2 (by simpa using hu), fun _ => rfl⟩
  | cinit | csym | cpfx => exact ⟨fun _ => ⟨rfl, rfl, rfl, rfl⟩, fun h3 => absurd h3 (by simpa using hu)⟩
  | nothing | flag => exact ⟨fun _ => ⟨rfl, rfl, rfl, rfl⟩, fun _ => rfl⟩

/-- From `s` to `t` and from `s'` to `t'` a command did the same as far as the unit `u` goes: the same registers of the unit,
the same response, the same flags gained. -/
structure AlikeAfter (u : BitVec 4) (s s' t t' : State) : Prop where
  registers : SameOn u t t'
  responses : ∃ r, t.responses = s.responses ++ [r] ∧ t'.responses = s'.responses ++ [r]
  err : ∃ e, t.err = s.err ||| e ∧ t'.err = s'.err ||| e

/-- Where two results are next states, they are alike. -/
def RunsAlike (u : BitVec 4) (s s' : State) (r r' : Result) : Prop :=
  ∀ t t', r = .next t → r' = .next t' → AlikeAfter u s s' t t'

theorem runsAlike_finish (c : Response) {u : BitVec 4} {s s' v v' : State} (h : SameOn u v v')
    (hr : v.responses = s.responses := by rfl) (hr' : v'.responses = s'.responses := by rfl)
    (he : v.err = s.err := by rfl) (he' : v'.err = s'.err := by rfl) :
    RunsAlike u s s' (finish c v) (finish c v') := by
  rintro _ _ ⟨⟩ ⟨⟩
  exact ⟨⟨h.regrouper, h.checksum⟩, ⟨responseWord c, by simp [hr], by simp [hr']⟩, ⟨0, by simp [he], by simp [he']⟩⟩

theorem runsAlike_raise (k : FaultKind) {u : BitVec 4} {s s' : State} (h : SameOn u s s') :
    RunsAlike u s s' (raise k s) (raise k s') := by
  rintro _ _ ⟨⟩ ⟨⟩
  exact ⟨⟨h.regrouper, h.checksum⟩, ⟨_, rfl, rfl⟩, ⟨faultFlag k, rfl, rfl⟩⟩

theorem runsAlike_whenRegrouperOk {u : BitVec 4} {s s' : State} {r r' : Result} (h : RunsAlike u s s' r r') :
    RunsAlike u s s' (whenRegrouperOk s r) (whenRegrouperOk s' r') :=
  fun t t' ht ht' => h t t' (whenRegrouperOk_next.mp ht).2 (whenRegrouperOk_next.mp ht').2

/-- A unit's command does the same in two states of one block that agree on the unit's registers. -/
theorem exec_runsAlike {i : Instr} {s s' : State} (hi : unitOf i ≠ 0) (hc : s'.config = s.config)
    (h : SameOn (unitOf i) s s') : RunsAlike (unitOf i) s s' (exec i s) (exec i s') := by
  cases i
  case rdst | eclr | srst => simp at hi
  all_goals refine runsAlike_whenRegrouperOk ?_
  case a2s c =>
    rw [hc]
    cases symbolOf s.config c with
    | none => exact runsAlike_raise _ h
    | some i => exact runsAlike_finish _ h
  case s2a v =>
    rw [hc]
    cases operandSymbol v with
    | none => exact runsAlike_raise _ h
    | some i => exact runsAlike_finish _ h
  case rinit m =>
    rw [unitOf_rinit]
    exact runsAlike_finish _ (.of_regrouper rfl rfl rfl rfl)
  case rpush v =>
    rw [unitOf_rpush] at h ⊢
    obtain ⟨ha, hb, hd, hs⟩ := h.regrouper rfl
    have hpushed : pushed v s' = pushed v s := by rw [pushed, pushed, ha, hd]
    have houtputs : pushOutputs v s' = pushOutputs v s := by rw [pushOutputs, pushOutputs, hpushed, hb, hd]
    rw [hd, hpushed, houtputs]
    split
    · exact runsAlike_raise _ h
    · exact runsAlike_finish _ (.of_regrouper rfl rfl hd hs)
  case rflush =>
    rw [unitOf_rflush] at h ⊢
    obtain ⟨ha, hb, hd, hs⟩ := h.regrouper rfl
    have hpad : padValue s' = padValue s := by rw [padValue, padValue, ha, hb, hd]
    have hemptied : SameOn 2 (emptied s) (emptied s') := .of_regrouper rfl rfl hd hs
    rw [hs, hd, hb, hpad]
    split
    · split
      · exact runsAlike_raise _ h
      · exact runsAlike_finish _ hemptied
    · exact runsAlike_finish _ hemptied
  case cinit =>
    rw [unitOf_cinit]
    exact runsAlike_finish _ (.of_checksum rfl)
  case csym v =>
    rw [unitOf_csym] at h ⊢
    rw [h.checksum rfl]
    cases operandSymbol v with
    | none => exact runsAlike_raise _ h
    | some i => exact runsAlike_finish _ (.of_checksum rfl)
  case cpfx c =>
    rw [unitOf_cpfx] at h ⊢
    rw [h.checksum rfl]
    exact runsAlike_finish _ (.of_checksum rfl)
  case cget k =>
    rw [unitOf_cget] at h ⊢
    rw [h.checksum rfl]
    exact runsAlike_finish _ h

/-! ### A command's effect does not depend on `ERR` (R28) -/

/-- `s` with another `ERR`. -/
def State.withErr (e : BitVec 4) (s : State) : State := { s with err := e }

@[simp] theorem withErr_config (e : BitVec 4) (s : State) : (s.withErr e).config = s.config := rfl

/-- A result with its `ERR` forgotten. -/
def resultButErr : Result → Result
  | .next t => .next (t.withErr 0)
  | .fault f => .fault f
  | .refused r => .refused r

theorem resultButErr_eq_next {r : Result} {t : State} (h : resultButErr r = .next (t.withErr 0)) :
    ∃ t', r = .next t' ∧ t'.withErr 0 = t.withErr 0 := by
  cases r with
  | next t' => exact ⟨t', rfl, Host.Outcome.next.inj h⟩
  | fault f => cases h
  | refused r => cases h

/-- The guard reads no flag, so a guarded command forgets `ERR` when its body does. -/
theorem whenRegrouperOk_withErr {e : BitVec 4} {s : State} {r r' : Result} (h : resultButErr r' = resultButErr r) :
    resultButErr (whenRegrouperOk (s.withErr e) r') = resultButErr (whenRegrouperOk s r) := by
  have hguard : regrouperOk (s.withErr e) = regrouperOk s := rfl
  cases hok : regrouperOk s
  · rw [whenRegrouperOk_of_not hok, whenRegrouperOk_of_not (hguard.trans hok)]
  · rw [whenRegrouperOk_of_ok hok, whenRegrouperOk_of_ok (hguard.trans hok), h]

/-- Every command but `RDST` run with another `ERR` leaves the same but for `ERR`. -/
theorem exec_withErr {i : Instr} (hi : i ≠ .rdst) (e : BitVec 4) (s : State) :
    resultButErr (exec i (s.withErr e)) = resultButErr (exec i s) := by
  cases i
  case rdst => exact absurd rfl hi
  all_goals refine whenRegrouperOk_withErr ?_
  case a2s c => rw [withErr_config]; cases symbolOf s.config c <;> rfl
  case s2a v | csym v => cases operandSymbol v <;> rfl
  case rpush v => simp only [apply_ite resultButErr]; rfl
  case rflush => simp only [apply_ite resultButErr]; rfl
  all_goals rfl

/-! ### The eight checksum symbols and `Z` (R27, R44, R106) -/

/-- The word that returns one symbol (R56). -/
theorem responseWord_symbol (x : Symbol) : responseWord (.ok1 (x.setWidth 8)) = 0x04000000 ||| x.setWidth 32 := by
  revert x; decide

/-- A list of `CGET` leaves every register alone and returns the symbols in the list's order. -/
theorem runCommands_cget (ks : List (BitVec 3)) {s : State} (h : s.Inv) :
    runCommands (ks.map .cget) s = .next { s with
      responses := s.responses ++ (ks.map (checksumSymbol (s.chk ^^^ 1))).map fun x => 0x04000000 ||| x.setWidth 32 } := by
  induction ks generalizing s with
  | nil => simp [runCommands]
  | cons k ks ih =>
    rw [List.map_cons, runCommands_cons_of_next (exec_cget h k), ih (s := respond _ s) h]
    simp [respond, responseWord_symbol]

theorem checksumSymbol_toNat (p : ChkWord) (k : BitVec 3) :
    (checksumSymbol p k).toNat = p.toNat / 32 ^ (7 - k.toNat) % 32 := by
  rw [checksumSymbol, BitVec.extractLsb'_toNat, Nat.shiftRight_eq_div_pow, Nat.pow_mul]

/-- The eight symbols of a 40-bit value are its base-32 digits (R44). -/
theorem foldl_checksumSymbols (p : ChkWord) :
    (checksumSymbols p).foldl (fun n x => n * 32 + x.toNat) 0 = p.toNat := by
  have hp : p.toNat < 2 ^ 40 := p.isLt
  simp [checksumSymbols, checksumSymbol_toNat]
  omega

/-- All eight symbols are 0 exactly when the value is: its digits determine it. -/
theorem checksumSymbol_eq_zero_iff (p : ChkWord) : (∀ k, checksumSymbol p k = 0) ↔ p = 0 := by
  refine ⟨fun h => ?_, fun h k => by simp [h, checksumSymbol]⟩
  have hfold := foldl_checksumSymbols p
  rw [checksumSymbols, List.map_congr_left fun k _ => h k] at hfold
  exact BitVec.eq_of_toNat_eq hfold.symm

theorem status_getLsbD_five (s : State) : (status s).getLsbD 5 = zFlag s := by
  simp only [status, BitVec.getLsbD_append]
  simp

/-- Bit 5 of the word `RDST` returns is `Z` (R115). -/
theorem exec_rdst_getLsbD_five {s t : State} {r : RspWord} (h : exec .rdst s = .next t)
    (hr : t.responses = s.responses ++ [r]) : r.getLsbD 5 = zFlag s := by
  cases (exec_rdst (inv_of_exec_next h)).symm.trans h
  obtain rfl := List.singleton_inj.mp (List.append_cancel_left hr)
  rw [responseWord, rspWord_getLsbD, if_pos (by decide), BitVec.getLsbD_extractLsb']
  simpa using status_getLsbD_five s

theorem zFlag_eq_true {s : State} : zFlag s = true ↔ s.chk = 1 := by simp [zFlag]

/-- `CGET` returns the symbol 0 exactly when its symbol of `CHK ^ 1` is. -/
theorem exec_cget_eq_zero_iff {s : State} (h : s.Inv) (k : BitVec 3) :
    exec (.cget k) s = .next { s with responses := s.responses ++ [0x04000000] } ↔ checksumSymbol (s.chk ^^^ 1) k = 0 := by
  have hword : ∀ x : Symbol, 0x04000000 ||| x.setWidth 32 = (0x04000000 : RspWord) ↔ x = 0 := by decide
  rw [exec_cget h, ← hword, ← responseWord_symbol]
  simp [respond]

/-! ### The statements -/

/-- Settles O14: by the host's next event (`step_inv`). -/
theorem everyStepKeepsTheInvariant : Obligations.EveryStepKeepsTheInvariant := fun _ _ => step_inv

/-- Settles O18: the frame of what a command may write; the ports are those of any command word. -/
theorem registerUseOfEveryCommand : Obligations.RegisterUseOfEveryCommand := by
  intro i s t h
  obtain ⟨hpending, hresponses, hconfig, -⟩ := exec_answers i s t h
  obtain ⟨c, u, hw, rfl⟩ := exec_writes i s t h
  refine ⟨hw.chk, hw.leftover, hw.mode, ?_, ?_, hconfig, hpending, hresponses⟩
  · intro hsrst heclr ha2s hs2a hrpush hrflush hcsym
    have hfault := canFault_eq_false ha2s hs2a hrpush hrflush hcsym
    exact (hw.err hsrst heclr).resolve_right (by simp [hfault])
  · exact fun hsrst heclr => (hw.err hsrst heclr).imp_right And.right

/-- Settles O22: with `ERR` forgotten, the run with other flags is the given one (`exec_withErr`). -/
theorem stickyFlagsChangeNoOtherResult : Obligations.StickyFlagsChangeNoOtherResult := by
  intro i s t e hi h
  have hrun := exec_withErr hi e s
  rw [h] at hrun
  obtain ⟨t', ht', hsame⟩ := resultButErr_eq_next hrun
  simp only [State.withErr, State.mk.injEq] at hsame
  obtain ⟨hchk, hacc, hbits, hdir, hstrict, -, -, hresponses, -⟩ := hsame
  exact ⟨t', ht', hresponses, hchk, hacc, hbits, hdir, hstrict⟩

/-- Settles O23: by the host's next event; an illegal word only sets a flag, and a command's word is the one it encodes to. -/
theorem onlyClearingCommandsClearAFlag : Obligations.OnlyClearingCommandsClearAFlag := by
  intro s t b h hs ht
  match hp : s.pending with
  | [] =>
    cases (step_of_idle hp).symm.trans h
    simp [hs] at ht
  | .reset :: rest => exact ⟨rest, .inl rfl⟩
  | .command w :: rest =>
    rw [step_of_command hp] at h
    cases hd : decode w with
    | error e =>
      cases (runWord_of_decode_error hd _).symm.trans h
      simp [hs] at ht
    | ok i =>
      rw [runWord_of_decode_ok hd] at h
      rw [← encode_of_decode hd]
      rcases exec_clears_flag h hs ht with rfl | ⟨f, hf, rfl⟩
      · exact ⟨rest, .inr (.inl rfl)⟩
      · exact ⟨rest, .inr (.inr ⟨f, hf, rfl⟩)⟩

/-- Settles O24: each command finds its unit's registers as the other order left them, and leaves the other unit's alone. -/
theorem commandsOfDifferentUnitsCommute : Obligations.CommandsOfDifferentUnitsCommute := by
  intro i j s s₁ t hi hj hij hi₁ hjt
  have hs : s.Inv := inv_of_exec_next hi₁
  obtain ⟨s₂, hj₂⟩ := exec_completes j hs
  have answer₂ := exec_answers j s s₂ hj₂
  obtain ⟨t', hit'⟩ := exec_completes i (answer₂.inv hs)
  have jAlike : AlikeAfter (unitOf j) s s₁ s₂ t := exec_runsAlike hj (exec_answers i s s₁ hi₁).config
    (exec_sameOn_of_ne hi hij.symm hi₁) _ _ hj₂ hjt
  have iAlike : AlikeAfter (unitOf i) s s₂ s₁ t' := exec_runsAlike hi answer₂.config
    (exec_sameOn_of_ne hj hij hj₂) _ _ hi₁ hit'
  have same : ∀ u, SameOn u t' t := by
    intro u
    by_cases hui : u = unitOf i
    · subst hui
      exact iAlike.registers.symm.trans (exec_sameOn_of_ne hj hij hjt)
    · have ht' : SameOn u t' s₂ := (exec_sameOn_of_ne hi hui hit').symm
      by_cases huj : u = unitOf j
      · subst huj
        exact ht'.trans jAlike.registers
      · have hs₂ : SameOn u s₂ s := (exec_sameOn_of_ne hj huj hj₂).symm
        exact ht'.trans (hs₂.trans ((exec_sameOn_of_ne hi hui hi₁).trans (exec_sameOn_of_ne hj huj hjt)))
  obtain ⟨ha, hb, hd, hstrict⟩ := (same 2).regrouper rfl
  obtain ⟨rj, hrj, hrj'⟩ := jAlike.responses
  obtain ⟨ri, hri, hri'⟩ := iAlike.responses
  obtain ⟨ej, hej, hej'⟩ := jAlike.err
  obtain ⟨ei, hei, hei'⟩ := iAlike.err
  have herr : t.err = t'.err := by rw [hej', hei, hei', hej, BitVec.or_assoc, BitVec.or_assoc, BitVec.or_comm ei]
  exact ⟨s₂, t', ri, rj, hj₂, hit', ⟨(same 3).checksum rfl, ha, hb, hd, hstrict, herr⟩,
    by simp [hrj', hri], by simp [hri', hrj]⟩

/-- Settles O44: the symbols are those of `CHK ^ 1`, its base-32 digits. -/
theorem eightCgetsRecoverChk : Obligations.EightCgetsRecoverChk := fun s hs =>
  ⟨_, checksumSymbols (s.chk ^^^ 1), runCommands_cget [0, 1, 2, 3, 4, 5, 6, 7] hs, ⟨rfl, rfl, rfl, rfl, rfl, rfl⟩, rfl, rfl,
    foldl_checksumSymbols _⟩

/-- Settles O45: bit 5 is `Z`, and `CHK ^ 1` is 0 exactly when its eight symbols are. -/
theorem zeroFlagMeansAllChecksumSymbolsZero : Obligations.ZeroFlagMeansAllChecksumSymbolsZero := by
  intro s t r h hr
  have hz : r.getLsbD 5 = true ↔ s.chk = 1 := by rw [exec_rdst_getLsbD_five h hr, zFlag_eq_true]
  refine ⟨hz, hz.trans ?_⟩
  simp only [exec_cget_eq_zero_iff (inv_of_exec_next h), checksumSymbol_eq_zero_iff]
  exact BitVec.xor_eq_zero_iff.symm

/-- Settles O12: reset and `SRST` both leave `resetRegisters`. -/
theorem resetLeavesTheStatedValues : Obligations.ResetLeavesTheStatedValues :=
  ⟨⟨rfl, rfl, rfl, rfl, rfl, rfl⟩,
    fun _ _ hp => ⟨_, step_of_reset hp, sameRegisters_resetRegisters _, zFlag_resetRegisters _, status_resetRegisters _⟩,
    fun s hs => ⟨_, exec_srst hs, sameRegisters_resetRegisters s, zFlag_resetRegisters s, status_resetRegisters s⟩⟩

/-- Settles O13: the regrouper is empty at reset. -/
theorem resetMeetsTheInvariant : Obligations.ResetMeetsTheInvariant := ⟨regrouperOk_of_empty rfl rfl, inv_iff⟩

/-- Settles O16: R25's inequalities are the guard of every command. -/
theorem brokenRegrouperStateIsRefused : Obligations.BrokenRegrouperStateIsRefused :=
  fun i s h => exec_of_not_inv i (mt (inv_iff s).mp h)

/-- Settles O29: `SRST` and reset leave `resetRegisters`; the three commands in a row set the same registers. -/
theorem srstGivesTheResetState : Obligations.SrstGivesTheResetState := by
  refine ⟨by decide, fun s hs => ⟨exec_srst hs, ⟨_, rfl, rfl, rfl, rfl, rfl, rfl, rfl, rfl⟩, ?_⟩⟩
  have hcinit : (respond .ok0 { s with chk := 1 }).Inv := hs
  have hrun := (runCommands_cons_of_next (exec_cinit hs) [.rinit 0, .eclr 0xF]).trans
    ((runCommands_cons_of_next (exec_rinit hcinit 0) [.eclr 0xF]).trans
      (runCommands_cons_of_next (exec_eclr (regrouperOk_of_empty rfl rfl) 0xF) []))
  exact ⟨_, hrun, rfl, rfl, rfl, rfl, rfl, BitVec.and_zero⟩

end Sys2Proof.Machine
end

section
/-! ## Commands that change nothing and commands that may be repeated (R49)

A command that can fault in one way only leaves either one given state or the flagged old one, and its response word tells which
(`LeavesOrFaults`); a regrouper once emptied has nothing left to flush. -/

namespace Sys2Proof.Machine

/-! ### What a response without an error code says about the registers (R56, R152) -/

/-- Where a result is a next state, it is a response delivered on `u`, or a fault raised from `s`. -/
def LeavesOrFaults (s u : State) (r : Result) : Prop :=
  ∀ t, r = .next t → (∃ c, t = respond c u) ∨ ∃ k, t = respond (.error k) (withFlag k s)

theorem leavesOrFaults_finish (c : Response) (s u : State) : LeavesOrFaults s u (finish c u) := by
  rintro _ ⟨⟩
  exact .inl ⟨c, rfl⟩

theorem leavesOrFaults_raise (k : FaultKind) (s u : State) : LeavesOrFaults s u (raise k s) := by
  rintro _ ⟨⟩
  exact .inr ⟨k, rfl⟩

theorem leavesOrFaults_whenRegrouperOk {s u : State} {r : Result} (h : LeavesOrFaults s u r) :
    LeavesOrFaults s u (whenRegrouperOk s r) :=
  fun t ht => h t (whenRegrouperOk_next.mp ht).2

/-- No error response has the code 0 in its top four bits (R56, R151). -/
theorem responseWord_error_ne_zero (k : FaultKind) : (responseWord (.error k)).extractLsb' 28 4 ≠ 0 := by
  cases k <;> decide

/-- A response word without an error code rules the fault out. -/
theorem LeavesOrFaults.of_no_fault {s u t : State} {r : Result} {w : RspWord} (h : LeavesOrFaults s u r) (ht : r = .next t)
    (hw : t.responses = s.responses ++ [w]) (hok : w.extractLsb' 28 4 = 0) : ∃ c, t = respond c u := by
  refine (h t ht).resolve_right ?_
  rintro ⟨k, rfl⟩
  obtain rfl := List.singleton_inj.mp (List.append_cancel_left hw)
  exact responseWord_error_ne_zero k hok

/-- The four reading commands leave the registers or fault. -/
theorem exec_read_leavesOrFaults {i : Instr}
    (hi : i = .rdst ∨ (∃ c, i = .a2s c) ∨ (∃ v, i = .s2a v) ∨ ∃ k, i = .cget k) (s : State) :
    LeavesOrFaults s s (exec i s) := by
  obtain rfl | ⟨c, rfl⟩ | ⟨v, rfl⟩ | ⟨k, rfl⟩ := hi <;> refine leavesOrFaults_whenRegrouperOk ?_
  · exact leavesOrFaults_finish _ s s
  · cases symbolOf s.config c with
    | some x => exact leavesOrFaults_finish _ s s
    | none => exact leavesOrFaults_raise _ s s
  · cases operandSymbol v with
    | some x => exact leavesOrFaults_finish _ s s
    | none => exact leavesOrFaults_raise _ s s
  · exact leavesOrFaults_finish _ s s

/-- `RFLUSH` empties the regrouper or faults (R89). -/
theorem exec_rflush_leavesOrFaults (s : State) : LeavesOrFaults s (emptied s) (exec .rflush s) := by
  refine leavesOrFaults_whenRegrouperOk ?_
  split
  · split
    · exact leavesOrFaults_raise _ s _
    · exact leavesOrFaults_finish _ s _
  · exact leavesOrFaults_finish _ s _

/-! ### Commands that change nothing when repeated -/

/-- In `t` the command succeeds, emits nothing and changes no register. -/
def DoesNothingIn (i : Instr) (t : State) : Prop :=
  ∃ u, exec i t = .next u ∧ SameRegisters u t ∧ u.responses = t.responses ++ [0]

theorem doesNothingIn_of_exec {i : Instr} {t v : State} (h : exec i t = .next (respond .ok0 v)) (hv : SameRegisters v t)
    (hr : v.responses = t.responses) : DoesNothingIn i t := by
  refine ⟨_, h, hv, ?_⟩
  rw [respond_responses, hr]
  rfl

/-- `ECLR` with the same mask clears nothing more. -/
theorem and_not_and_not (e f : BitVec 4) : e &&& ~~~f &&& ~~~f = e &&& ~~~f := by
  rw [BitVec.and_assoc, BitVec.and_self]

/-- The four commands that write constants or clear flags find their own effect in place (R87, R103, R116, R117). -/
theorem doesNothingIn_of_exec_setting {i : Instr} (hi : (∃ m, i = .rinit m) ∨ i = .cinit ∨ i = .srst ∨ ∃ f, i = .eclr f)
    {s t : State} (h : exec i s = .next t) : DoesNothingIn i t := by
  have hs : s.Inv := inv_of_exec_next h
  have ht : t.Inv := (exec_answers i s t h).inv hs
  obtain ⟨m, rfl⟩ | rfl | rfl | ⟨f, rfl⟩ := hi
  · cases (exec_rinit hs m).symm.trans h
    exact doesNothingIn_of_exec (exec_rinit ht m) ⟨rfl, rfl, rfl, rfl, rfl, rfl⟩ rfl
  · cases (exec_cinit hs).symm.trans h
    exact doesNothingIn_of_exec (exec_cinit ht) ⟨rfl, rfl, rfl, rfl, rfl, rfl⟩ rfl
  · cases (exec_srst hs).symm.trans h
    exact doesNothingIn_of_exec (exec_srst ht) ⟨rfl, rfl, rfl, rfl, rfl, rfl⟩ rfl
  · cases (exec_eclr hs f).symm.trans h
    exact doesNothingIn_of_exec (exec_eclr ht f) ⟨rfl, rfl, rfl, rfl, rfl, and_not_and_not s.err f⟩ rfl

/-- An empty regrouper pads to 0 (R89). -/
theorem padValue_of_empty {s : State} (ha : s.acc = 0) : padValue s = 0 := by
  simp [padValue, ha]

/-- With no leftover bits `RFLUSH` neither faults, strict or lenient, nor emits (R89). -/
theorem exec_rflush_of_empty {s : State} (ha : s.acc = 0) (hb : s.bits = 0) :
    exec .rflush s = .next (respond .ok0 (emptied s)) := by
  have hfrom : ¬ fromWidth s.dir ≤ s.bits.toNat := by cases hd : s.dir <;> simp [fromWidth, hb]
  refine (whenRegrouperOk_of_ok (regrouperOk_of_empty ha hb) _).trans ?_
  cases hstrict : s.strict
  · simp [hb, responseOfData]
  · simp [hfrom, padValue_of_empty ha]

/-! ### The statement -/

/-- Settles O25: a reading command without a fault leaves its state, a setting command finds its effect in place, and a successful
`RFLUSH` leaves an empty regrouper, which flushes to nothing. -/
theorem repeatableCommandsRepeat : Obligations.RepeatableCommandsRepeat := by
  refine ⟨fun i s t r hi h hr hok => ?_, fun i s t hi h => doesNothingIn_of_exec_setting hi h, fun s t r h hr hok => ?_⟩
  · obtain ⟨c, rfl⟩ := (exec_read_leavesOrFaults hi s).of_no_fault h hr hok
    exact ⟨rfl, rfl, rfl, rfl, rfl, rfl⟩
  · obtain ⟨c, rfl⟩ := (exec_rflush_leavesOrFaults s).of_no_fault h hr hok
    exact doesNothingIn_of_exec (exec_rflush_of_empty rfl rfl) ⟨rfl, rfl, rfl, rfl, rfl, rfl⟩ rfl

end Sys2Proof.Machine
end

section
/-! ## Encoding: the decoder read by operand form, the opcode map, the illegal words, the response words

What decoding does with an opcode and an `arg`, said once by the opcode's form (`decode_byForm`). A row of the opcode map fixes the
opcode and the reserved bits of its form, so a row accepts well-formed words only, and no two rows accept one word. A response word
is the word of some response (`runWord_responds`), and of a command's responses without an error code `exec` is read arm by arm. -/

namespace Sys2Proof

/-! ### Forms and well-formed words (R57, R59) -/

/-- The bits of `arg` a form reserves (R57, R60). -/
def Form.reservedBits : Form → Byte
  | .Z => 0xFF
  | .B | .S => 0x00
  | .M => 0xFC
  | .K => 0xF8
  | .F => 0xF0

theorem legalArg_iff_and_reservedBits (f : Form) (arg : Byte) : f.legalArg arg = true ↔ arg &&& f.reservedBits = 0 := by
  revert arg
  cases f <;> decide

theorem legalArg_Z (arg : Byte) : Form.Z.legalArg arg = true ↔ arg = 0 := beq_iff_eq

theorem legalArg_M (arg : Byte) : Form.M.legalArg arg = true ↔ arg.extractLsb' 2 6 = 0 := by
  revert arg; decide

theorem legalArg_K (arg : Byte) : Form.K.legalArg arg = true ↔ arg.extractLsb' 3 5 = 0 := by
  revert arg; decide

theorem legalArg_F (arg : Byte) : Form.F.legalArg arg = true ↔ arg.extractLsb' 4 4 = 0 := by
  revert arg; decide

/-- What decoding an opcode and an `arg` may answer, by the form of the opcode: every `arg` a form does not allow has a reserved
bit set (R59 to R61). -/
def DecodesByForm (op arg : Byte) (d : Except Illegal Instr) : Option Form → Prop
  | none => d = .error (.unassignedOpcode op)
  | some f => if f.legalArg arg = true then ∃ i, d = .ok i else d = .error (.reservedOperandBits op arg)

section DecodesByForm
variable (op arg : Byte)

/-- A check that the reserved bits of the opcode's form are 0 decides as the form does. -/
theorem ite_byForm {f : Form} {p : Prop} [Decidable p] (hop : formOfOp op = some f) (hp : f.legalArg arg = true ↔ p) (i : Instr) :
    DecodesByForm op arg (if p then .ok i else .error (.reservedOperandBits op arg)) (formOfOp op) := by
  rw [hop]
  simp only [DecodesByForm, hp]
  split
  · exact ⟨i, rfl⟩
  · rfl

/-- Without a check the opcode's form has to allow every `arg`. -/
theorem ok_byForm {f : Form} (hop : formOfOp op = some f) (hf : f.legalArg arg = true) (i : Instr) :
    DecodesByForm op arg (.ok i) (formOfOp op) := by
  rw [hop, DecodesByForm, if_pos hf]
  exact ⟨i, rfl⟩

/-- Row by row of R62, `decode` calls the decoder of the form `formOfOp` names; forms B and S allow every `arg`. -/
theorem decode_byForm : DecodesByForm op arg (decode (cmdWord op arg)) (formOfOp op) := by
  simp only [decode, opField_cmdWord, argField_cmdWord]
  split
  case h_1 hop | h_3 hop | h_8 hop | h_9 hop =>
    exact ite_byForm op arg (by simp only [formOfOp, hop]) (legalArg_Z arg) _
  case h_2 hop => exact ite_byForm op arg (by simp only [formOfOp, hop]) (legalArg_F arg) _
  case h_6 hop => exact ite_byForm op arg (by simp only [formOfOp, hop]) (legalArg_M arg) _
  case h_12 hop => exact ite_byForm op arg (by simp only [formOfOp, hop]) (legalArg_K arg) _
  case h_4 hop | h_7 hop | h_11 hop =>
    exact ok_byForm op arg (f := .B) (by simp only [formOfOp, hop]) rfl _
  case h_5 hop | h_10 hop =>
    exact ok_byForm op arg (f := .S) (by simp only [formOfOp, hop]) rfl _
  case h_13 =>
    have hop : formOfOp op = none := by simp only [formOfOp, *]
    rw [hop]
    rfl

end DecodesByForm

section Cases
variable {op arg : Byte}

theorem decode_of_unassigned (h : formOfOp op = none) : decode (cmdWord op arg) = .error (.unassignedOpcode op) := by
  have hd := decode_byForm op arg
  rwa [h] at hd

theorem decode_of_not_legalArg {f : Form} (h : formOfOp op = some f) (harg : f.legalArg arg = false) :
    decode (cmdWord op arg) = .error (.reservedOperandBits op arg) := by
  have hd := decode_byForm op arg
  rwa [h, DecodesByForm, harg] at hd

theorem decode_of_legalArg {f : Form} (h : formOfOp op = some f) (harg : f.legalArg arg = true) :
    ∃ i, decode (cmdWord op arg) = .ok i := by
  have hd := decode_byForm op arg
  rwa [h, DecodesByForm, if_pos harg] at hd

/-- The decoder accepts the well-formed raw commands (R59). -/
theorem decode_ok_iff_wellFormed : (∃ i, decode (cmdWord op arg) = .ok i) ↔ RawCommand.wellFormed ⟨op, arg⟩ = true := by
  cases hop : formOfOp op with
  | none => simp [decode_of_unassigned hop, RawCommand.wellFormed, hop]
  | some f =>
    cases harg : f.legalArg arg with
    | false => simp [decode_of_not_legalArg hop harg, RawCommand.wellFormed, hop, harg]
    | true => simp [decode_of_legalArg hop harg, RawCommand.wellFormed, hop, harg]

end Cases

/-! ### The opcode map (R62) -/

/-- The opcode a row is for. -/
def OpcodeRow.op (r : OpcodeRow) : Byte := opField r.value

/-- A row is for an assigned opcode, and its mask is the opcode and the reserved bits of the opcode's form. -/
theorem row_mask_value {r : OpcodeRow} (hr : r ∈ opcodeTable) :
    (formOfOp r.op).map (fun f => cmdWord 0xFF f.reservedBits) = some r.mask ∧ argField r.value = 0 := by
  revert r; decide

theorem row_eq_of_op_eq : ∀ r ∈ opcodeTable, ∀ q ∈ opcodeTable, r.op = q.op → r = q := by decide

theorem opField_and (w v : CmdWord) : opField (w &&& v) = opField w &&& opField v := BitVec.extractLsb'_and

theorem argField_and (w v : CmdWord) : argField (w &&& v) = argField w &&& argField v := BitVec.extractLsb'_and

/-- A row accepts only words of its own opcode whose `arg` is legal for the opcode's form. -/
theorem fields_of_row {r : OpcodeRow} (hr : r ∈ opcodeTable) {w : CmdWord} (hw : w &&& r.mask = r.value) :
    opField w = r.op ∧ ∃ f, formOfOp r.op = some f ∧ f.legalArg (argField w) = true := by
  obtain ⟨hmask, hvalue⟩ := row_mask_value hr
  obtain ⟨f, hf, hmask⟩ := Option.map_eq_some_iff.mp hmask
  rw [← hmask] at hw
  have hop : opField w &&& 0xFF = r.op := by
    rw [OpcodeRow.op, ← hw, opField_and, opField_cmdWord]
  have harg : argField w &&& f.reservedBits = 0 := by
    rw [← hvalue, ← hw, argField_and, argField_cmdWord]
  exact ⟨(BitVec.and_allOnes (x := opField w)).symm.trans hop, f, hf, (legalArg_iff_and_reservedBits f _).mpr harg⟩

/-- No two rows accept one word: both are for its opcode. -/
theorem row_unique {r q : OpcodeRow} (hr : r ∈ opcodeTable) (hq : q ∈ opcodeTable) {w : CmdWord}
    (hwr : w &&& r.mask = r.value) (hwq : w &&& q.mask = q.value) : r = q :=
  row_eq_of_op_eq r hr q hq ((fields_of_row hr hwr).1.symm.trans (fields_of_row hq hwq).1)

theorem decode_of_row {r : OpcodeRow} (hr : r ∈ opcodeTable) {w : CmdWord} (hw : w &&& r.mask = r.value) :
    ∃ i, decode w = .ok i := by
  obtain ⟨hop, f, hf, harg⟩ := fields_of_row hr hw
  rw [← cmdWord_fields w, hop]
  exact decode_of_legalArg hf harg

/-- The row of a command accepts its word. -/
theorem row_of_instr (i : Instr) : Laws.OpcodeMap.Statement i := by
  cases i with
  | rdst => exact Laws.OpcodeMap.rdst
  | eclr f => exact Laws.OpcodeMap.eclr f
  | srst => exact Laws.OpcodeMap.srst
  | a2s c => exact Laws.OpcodeMap.a2s c
  | s2a v => exact Laws.OpcodeMap.s2a v
  | rinit m => exact Laws.OpcodeMap.rinit m
  | rpush v => exact Laws.OpcodeMap.rpush v
  | rflush => exact Laws.OpcodeMap.rflush
  | cinit => exact Laws.OpcodeMap.cinit
  | csym v => exact Laws.OpcodeMap.csym v
  | cpfx c => exact Laws.OpcodeMap.cpfx c
  | cget k => exact Laws.OpcodeMap.cget k

theorem row_of_decode {w : CmdWord} {i : Instr} (h : decode w = .ok i) :
    ∃ r ∈ opcodeTable, r.mnemonic = i.mnemonic ∧ w &&& r.mask = r.value := by
  obtain ⟨r, hr, hm, haccepts⟩ := row_of_instr i
  rw [Machine.encode_of_decode h] at haccepts
  exact ⟨r, hr, hm, beq_iff_eq.mp haccepts⟩

/-! ### How many words are legal (R59) -/

/-- Counting over `m` blocks of `b` numbers is counting in each block. -/
theorem countP_range_mul (p : Nat → Bool) (m b : Nat) :
    (List.range (m * b)).countP p = ((List.range m).map fun n => (List.range b).countP fun k => p (n * b + k)).sum := by
  induction m with
  | zero => simp
  | succ m ih =>
    rw [Nat.succ_mul, List.range_add, List.countP_append, ih, List.countP_map, List.range_succ, List.map_append, List.sum_append]
    simp [Function.comp_def]

/-- How many values of `arg` a form allows (R57). -/
def Form.legalArgs : Form → Nat
  | .Z => 1
  | .B | .S => 256
  | .M => 4
  | .K => 8
  | .F => 16

theorem countP_legalArg (f : Form) : ((List.range 256).countP fun k => f.legalArg (BitVec.ofNat 8 k)) = f.legalArgs := by
  cases f <;> decide +kernel

theorem countP_wellFormed (op : Byte) :
    ((List.range 256).countP fun k => RawCommand.wellFormed ⟨op, BitVec.ofNat 8 k⟩) = ((formOfOp op).map Form.legalArgs).getD 0 := by
  cases h : formOfOp op with
  | none => simp [RawCommand.wellFormed, h]
  | some f => simpa [RawCommand.wellFormed, h] using countP_legalArg f

theorem cmdWord_toNat (op arg : Byte) : (cmdWord op arg).toNat = op.toNat * 256 + arg.toNat := by
  have h := BitVec.toNat_append op arg
  rwa [← Nat.shiftLeft_add_eq_or_of_lt arg.isLt, Nat.shiftLeft_eq] at h

/-- The table word `256 * op + arg` is the command word of the two fields (R55). -/
theorem ofNat_fields (n : Nat) {k : Nat} (hk : k < 256) :
    BitVec.ofNat 16 ((n * 256 + k) % 2 ^ 16) = cmdWord (BitVec.ofNat 8 n) (BitVec.ofNat 8 k) := by
  apply BitVec.eq_of_toNat_eq
  rw [cmdWord_toNat, BitVec.toNat_ofNat, BitVec.toNat_ofNat, BitVec.toNat_ofNat]
  omega

theorem decodeTableWord_isSome (n : Nat) {k : Nat} (hk : k < 256) :
    (decodeTableWord 16 (n * 256 + k)).isSome = RawCommand.wellFormed ⟨BitVec.ofNat 8 n, BitVec.ofNat 8 k⟩ := by
  rw [Bool.eq_iff_iff, ← decode_ok_iff_wellFormed, decodeTableWord, if_pos le_rfl, ofNat_fields n hk]
  cases decode (cmdWord (BitVec.ofNat 8 n) (BitVec.ofNat 8 k)) <;> simp

/-! ### Words of forms B and S (R66) -/

theorem cmdWord_eq_or (op arg : Byte) : cmdWord op arg = cmdWord op 0 ||| arg.setWidth 16 := by
  have harg : arg.setWidth 16 = (0#8 ++ arg : BitVec (8 + 8)) := BitVec.setWidth_eq_append (by decide)
  show (op ++ arg : BitVec (8 + 8)) = (op ++ 0#8) ||| arg.setWidth 16
  rw [harg, BitVec.or_append, BitVec.or_zero, BitVec.zero_or]

theorem encode_cpfx (c : Byte) : encode (.cpfx c) = 0x3200 ||| c.setWidth 16 := cmdWord_eq_or 0x32 c

end Sys2Proof

namespace Sys2Proof.Machine

/-! ### Illegal words (R61) -/

/-- A step on a word that does not decode. -/
theorem step_of_decode_error {s : State} {w : CmdWord} {rest : List HostEvent} {e : Illegal} (hd : decode w = .error e)
    (hp : s.pending = .command w :: rest) :
    step s = .next { s with pending := rest, err := s.err ||| 0b1000, responses := s.responses ++ [0xF0000000] } :=
  (step_of_command hp).trans (runWord_of_decode_error hd _)

/-- R60's bits above the operand, form by form, make an `arg` the form does not allow. -/
theorem legalArg_eq_false_of_reserved {f : Form} {arg : Byte}
    (h : f = .Z ∧ arg ≠ 0 ∨ f = .M ∧ arg.extractLsb' 2 6 ≠ 0 ∨ f = .K ∧ arg.extractLsb' 3 5 ≠ 0 ∨
      f = .F ∧ arg.extractLsb' 4 4 ≠ 0) : f.legalArg arg = false := by
  rw [Bool.eq_false_iff]
  obtain ⟨rfl, h⟩ | ⟨rfl, h⟩ | ⟨rfl, h⟩ | ⟨rfl, h⟩ := h
  · exact (legalArg_Z arg).not.mpr h
  · exact (legalArg_M arg).not.mpr h
  · exact (legalArg_K arg).not.mpr h
  · exact (legalArg_F arg).not.mpr h

theorem formOfOp_eq_none : ∀ op : Byte,
    (op.toNat = 0x00 ∨ 0x04 ≤ op.toNat ∧ op.toNat ≤ 0x0F ∨ 0x12 ≤ op.toNat ∧ op.toNat ≤ 0x1F ∨
      0x23 ≤ op.toNat ∧ op.toNat ≤ 0x2F ∨ 0x34 ≤ op.toNat) → formOfOp op = none := by
  decide

/-! ### The response to a word (R56, R64) -/

theorem Writes.responses {i : Instr} {s u : State} (h : Writes s i u) : u.responses = s.responses := by
  cases h <;> rfl

/-- The word delivered is the word of some response. -/
theorem runWord_responds {w : CmdWord} {s t : State} (h : runWord w s = .next t) :
    ∃ c, t.responses = s.responses ++ [responseWord c] := by
  cases hd : decode w with
  | ok i =>
    obtain ⟨c, u, hu, rfl⟩ := exec_writes i s t ((runWord_of_decode_ok hd s).symm.trans h)
    exact ⟨c, by rw [respond_responses, hu.responses]⟩
  | error e =>
    cases (runWord_of_decode_error hd s).symm.trans h
    exact ⟨_, rfl⟩

/-- R56's restrictions on the fields of a response word. -/
def InForm (r : RspWord) : Prop :=
  r.extractLsb' 16 10 = 0 ∧ r.extractLsb' 26 2 ≠ 3 ∧
  (r.extractLsb' 28 4 = 0 ∨ r.extractLsb' 28 4 = 1 ∨ r.extractLsb' 28 4 = 2 ∨ r.extractLsb' 28 4 = 3 ∨ r.extractLsb' 28 4 = 15) ∧
  (r.extractLsb' 28 4 ≠ 0 → r.extractLsb' 26 2 = 0 ∧ r.extractLsb' 0 16 = 0) ∧
  (r.extractLsb' 26 2 ≠ 2 → r.extractLsb' 8 8 = 0) ∧ (r.extractLsb' 26 2 = 0 → r.extractLsb' 0 8 = 0)

theorem inForm_responseWord (c : Response) : InForm (responseWord c) := by
  cases c with
  | ok0 => unfold InForm; decide
  | ok1 d0 => simp [InForm, responseWord]
  | ok2 d0 d1 => simp [InForm, responseWord]
  | error k => unfold InForm; cases k <;> decide

/-- Where a result is a next state whose response has no error code, `P` holds of the response word. -/
def OkWord (s : State) (P : RspWord → Prop) (r : Result) : Prop :=
  ∀ t w, r = .next t → t.responses = s.responses ++ [w] → w.extractLsb' 28 4 = 0 → P w

section OkWord
variable {s : State} {P : RspWord → Prop}

theorem okWord_finish {c : Response} {u : State} (hu : u.responses = s.responses) (h : P (responseWord c)) :
    OkWord s P (finish c u) := by
  rintro _ w ⟨⟩ hw -
  rw [respond_responses, hu] at hw
  obtain rfl := List.singleton_inj.mp (List.append_cancel_left hw)
  exact h

theorem okWord_raise (k : FaultKind) : OkWord s P (raise k s) := by
  rintro _ w ⟨⟩ hw hok
  obtain rfl := List.singleton_inj.mp (List.append_cancel_left hw)
  exact absurd hok (responseWord_error_ne_zero k)

theorem okWord_whenRegrouperOk {r : Result} (h : OkWord s P r) : OkWord s P (whenRegrouperOk s r) :=
  fun t w ht => h t w (whenRegrouperOk_next.mp ht).2

end OkWord

/-- A returned symbol is one data item below 32. -/
theorem responseWord_symbol_fields : ∀ x : Symbol,
    (responseWord (.ok1 (x.setWidth 8))).extractLsb' 26 2 = 1 ∧ (responseWord (.ok1 (x.setWidth 8))).extractLsb' 5 3 = 0 := by
  decide

/-- Any list of outputs is returned as 0, 1 or 2 data items. -/
theorem responseWord_responseOfData_n (d : List Byte) :
    (responseWord (responseOfData d)).extractLsb' 26 2 = 0 ∨ (responseWord (responseOfData d)).extractLsb' 26 2 = 1 ∨
      (responseWord (responseOfData d)).extractLsb' 26 2 = 2 := by
  match d with
  | [] => exact .inl (rspWord_n _ _ _ _)
  | [_] => exact .inr (.inl (rspWord_n _ _ _ _))
  | _ :: _ :: _ => exact .inr (.inr (rspWord_n _ _ _ _))

/-- What R64's table says of the response word of a command. -/
def OkShape (r : RspWord) : Instr → Prop
  | .rdst => r.extractLsb' 26 2 = 2
  | .eclr _ | .srst | .rinit _ | .cinit | .csym _ | .cpfx _ => r = 0
  | .a2s _ | .cget _ => r.extractLsb' 26 2 = 1 ∧ r.extractLsb' 5 3 = 0
  | .s2a _ => r.extractLsb' 26 2 = 1
  | .rpush _ => r.extractLsb' 26 2 = 0 ∨ r.extractLsb' 26 2 = 1 ∨ r.extractLsb' 26 2 = 2
  | .rflush => r.extractLsb' 26 2 = 0 ∨ r.extractLsb' 26 2 = 1

/-- Every command without a fault answers in the shape of R64's table. -/
theorem exec_okShape (i : Instr) (s : State) : OkWord s (fun r => OkShape r i) (exec i s) := by
  cases i <;> refine okWord_whenRegrouperOk ?_
  case rdst => exact okWord_finish rfl (rspWord_n _ _ _ _)
  case eclr | srst | rinit | cinit | cpfx => exact okWord_finish rfl rfl
  case a2s c =>
    cases symbolOf s.config c with
    | some x => exact okWord_finish rfl (responseWord_symbol_fields x)
    | none => exact okWord_raise _
  case s2a v =>
    cases operandSymbol v with
    | some x => exact okWord_finish rfl (rspWord_n _ _ _ _)
    | none => exact okWord_raise _
  case csym v =>
    cases operandSymbol v with
    | some x => exact okWord_finish rfl rfl
    | none => exact okWord_raise _
  case rpush v =>
    split
    · exact okWord_raise _
    · exact okWord_finish rfl (responseWord_responseOfData_n _)
  case rflush =>
    split
    · split
      · exact okWord_raise _
      · exact okWord_finish rfl (.inl (rspWord_n _ _ _ _))
    · refine okWord_finish rfl ?_
      split
      · exact .inr (rspWord_n _ _ _ _)
      · exact .inl (rspWord_n _ _ _ _)
  case cget k => exact okWord_finish rfl (responseWord_symbol_fields _)

/-! ### The statements -/

/-- Settles O1: the opcode of a command picks its arm of the decoder, and the operand comes back out of `arg` (`decode_encode`). -/
theorem encodedCommandDecodesToItself : Obligations.EncodedCommandDecodesToItself := decode_encode

/-- Settles O2: the reserved bits of a legal word are 0, so its two fields are the command's (`encode_of_decode`). -/
theorem decodedWordEncodesToItself : Obligations.DecodedWordEncodesToItself := fun _ _ => encode_of_decode

/-- Settles O3: a row accepts well-formed words only, and the row of the command such a word decodes to is that row, for no other
accepts the word. -/
theorem decoderAgreesWithMaskAndMatch : Obligations.DecoderAgreesWithMaskAndMatch := by
  refine ⟨fun _ _ => row_of_decode, fun w r hr hw => ?_, fun _ _ _ hr hq => row_unique hr hq⟩
  obtain ⟨i, hi⟩ := decode_of_row hr hw
  obtain ⟨q, hq, hm, hwq⟩ := row_of_decode hi
  exact ⟨i, hi, by rw [row_unique hr hq hw hwq, hm]⟩

/-- Settles O5: a reserved bit makes an `arg` the form does not allow, and the word raises `IllegalCommand`. -/
theorem reservedBitsMakeTheWordIllegal : Obligations.ReservedBitsMakeTheWordIllegal := by
  intro op arg f hop hbits
  have hd := decode_of_not_legalArg hop (legalArg_eq_false_of_reserved hbits)
  exact ⟨hd, fun _ _ => step_of_decode_error hd⟩

/-- Settles O6: by what the form of the opcode says of the word. -/
theorem illegalWordRaisesIllegalCommand : Obligations.IllegalWordRaisesIllegalCommand := by
  have hzeros : decode 0x0000 = .error (.unassignedOpcode 0x00) := decode_of_unassigned (op := 0x00) (arg := 0x00) rfl
  have hones : decode 0xFFFF = .error (.unassignedOpcode 0xFF) := decode_of_unassigned (op := 0xFF) (arg := 0xFF) rfl
  refine ⟨fun w s rest hw hp => ?_, fun op arg hop => ?_, fun op arg f hop harg => ?_, fun op arg f hop harg => ?_,
    by decide +kernel, ?_, ?_⟩
  · cases hd : decode w with
    | ok i => exact absurd hd (hw i)
    | error e => exact step_of_decode_error hd hp
  · simp [decode_of_unassigned (formOfOp_eq_none op hop)]
  · simp [decode_of_not_legalArg hop harg]
  · obtain ⟨i, hi⟩ := decode_of_legalArg hop harg
    exact ⟨i, hi, fun j hj => Except.ok.inj (hj.symm.trans hi)⟩
  · intro i; rw [hzeros]; exact nofun
  · intro i; rw [hones]; exact nofun

/-- Settles O20: the word is that of some response, whose fields are in form and which reads back. -/
theorem everyResponseWordIsInForm : Obligations.EveryResponseWordIsInForm := by
  intro w s t h
  obtain ⟨c, hc⟩ := runWord_responds h
  obtain ⟨hreserved, hn, herr, hfault, hd1, hd0⟩ := inForm_responseWord c
  exact ⟨responseWord c, hc, hreserved, hn, herr, hfault, hd1, hd0, c, responseOfWord_responseWord c, rfl⟩

/-- Settles O21: `exec_okShape`, command by command. -/
theorem responseShapeOfEveryCommand : Obligations.ResponseShapeOfEveryCommand := by
  intro i s t r h hr hok
  have hshape := exec_okShape i s t r h hr hok
  cases i <;> exact hshape

/-- Settles O4: the words are counted opcode by opcode, each with the `arg` values its form allows. -/
theorem legalWordsNumber1312 : Obligations.LegalWordsNumber1312 := by
  have hblock (n : Nat) : ((List.range 256).countP fun k => (decodeTableWord 16 (n * 256 + k)).isSome) =
      ((formOfOp (BitVec.ofNat 8 n)).map Form.legalArgs).getD 0 := by
    rw [← countP_wellFormed]
    exact List.countP_congr fun k hk => by rw [decodeTableWord_isSome n (List.mem_range.mp hk)]
  unfold Obligations.LegalWordsNumber1312
  rw [← List.countP_eq_length_filter, show 65536 = 256 * 256 from rfl, countP_range_mul]
  simp only [hblock]
  decide +kernel

/-- Settles O7: each is the word a command encodes to. -/
theorem wordsOfTheSpecDecode : Obligations.WordsOfTheSpecDecode :=
  ⟨decode_encode .rdst, decode_encode (.eclr 4), decode_encode (.a2s 0x71), decode_encode (.s2a 15), decode_encode (.rinit 3),
    decode_encode (.rpush 0xFF), decode_encode (.csym 31), decode_encode (.cpfx 0x62), decode_encode (.cget 7)⟩

/-- Settles O8: the words of `CPFXS` by `encode_cpfx`, the fixed lists as they stand. -/
theorem pseudoCommandsExpandToTheirWords : Obligations.PseudoCommandsExpandToTheirWords := by
  refine ⟨rfl, rfl, fun p => ?_, rfl, rfl, rfl⟩
  rw [expand, List.map_map]
  exact List.map_congr_left fun c _ => encode_cpfx c

end Sys2Proof.Machine
end

section
/-! ## The alphabet: the table as a function of the symbol, the two lookups, `A2S` and `S2A`

The lookup of a code by position in the table is read as an equation in symbols: `symbolOf` answers the symbol whose code the folded
code is (`symbolOf_eq_some_iff`), or none. What the two commands leave is then one equation per case, with the response word
written out; `A2S` accepts a code exactly when its fold is in the table (`symbolOf_isSome`), which is what is counted. -/

namespace Sys2Proof

/-! ### The words of the two commands (R62, R66) -/

theorem encode_a2s (c : Byte) : encode (.a2s c) = 0x1000 ||| c.setWidth 16 := cmdWord_eq_or 0x10 c

theorem encode_s2a (v : Byte) : encode (.s2a v) = 0x1100 ||| v.setWidth 16 := cmdWord_eq_or 0x11 v

end Sys2Proof

namespace Sys2Proof.Machine

/-! ### The case fold (R76) -/

theorem isUpper_iff (c : Byte) : isUpper c = true ↔ 0x41 ≤ c.toNat ∧ c.toNat ≤ 0x5A := by simp [isUpper]

theorem isLower_iff (c : Byte) : isLower c = true ↔ 0x61 ≤ c.toNat ∧ c.toNat ≤ 0x7A := by simp [isLower]

/-- The fold as R77 writes it. -/
theorem foldCase_eq_ite (c : Byte) : foldCase c = if 0x41 ≤ c.toNat ∧ c.toNat ≤ 0x5A then c + 0x20 else c := by
  simp only [foldCase, isUpper_iff]

theorem foldCase_eq_self_iff (c : Byte) : foldCase c = c ↔ isUpper c = false := by
  revert c; decide

/-- A lowercase letter is the fold of its uppercase form. -/
theorem foldCase_sub_of_isLower : ∀ a : Byte, isLower a = true → foldCase (a - 0x20) = a := by decide

/-- A folded code is the fold of itself and, if it is a letter, of its uppercase form. -/
theorem foldCase_eq_iff {a : Byte} (ha : foldCase a = a) (c : Byte) :
    foldCase c = a ↔ c = a ∨ isLower a = true ∧ c = a - 0x20 := by
  constructor
  · rintro rfl
    have hfold : ∀ c : Byte, c = foldCase c ∨ isLower (foldCase c) = true ∧ c = foldCase c - 0x20 := by decide
    exact hfold c
  · rintro (rfl | ⟨hlower, rfl⟩)
    · exact ha
    · exact foldCase_sub_of_isLower a hlower

/-! ### The table (R75) -/

theorem alphaPrinted_not_upper : ∀ a ∈ alphaPrinted, isUpper a = false := by decide

theorem alphaPrinted_low : ∀ a ∈ alphaPrinted, a.toNat < 0x80 := by decide

theorem mem_alphaTable {cfg : Config} {a : Byte} : a ∈ alphaTable cfg ↔ a ∈ alphaPrinted ∨ a = cfg.alpha31 := by
  rw [alphaTable, List.mem_append, List.mem_singleton]

theorem alphaTable_nodup {cfg : Config} (h : cfg.alpha31 ∉ alphaPrinted) : (alphaTable cfg).Nodup :=
  List.nodup_append_comm.mp (List.nodup_cons.mpr ⟨h, by decide⟩)

/-- `ALPHA[s]` is the entry at position `s`: every symbol has one. -/
theorem alphaTable_getElem? (cfg : Config) (i : Symbol) : (alphaTable cfg)[i.toNat]? = some (alphaOf cfg i) := by
  have hi : i.toNat < (alphaTable cfg).length := i.isLt
  rw [alphaOf, List.getD_eq_getElem _ _ hi, List.getElem?_eq_getElem hi]

theorem alphaOf_last (cfg : Config) : alphaOf cfg 31 = cfg.alpha31 := rfl

theorem alphaOf_mem (cfg : Config) (i : Symbol) : alphaOf cfg i ∈ alphaTable cfg :=
  List.mem_of_getElem? (alphaTable_getElem? cfg i)

/-- The codes of the table are those of the symbols. -/
theorem exists_alphaOf_of_mem {cfg : Config} {a : Byte} (h : a ∈ alphaTable cfg) : ∃ i : Symbol, alphaOf cfg i = a := by
  obtain ⟨n, hn, rfl⟩ := List.getElem_of_mem h
  have hn32 : n < 32 := hn
  refine ⟨BitVec.ofNat 5 n, ?_⟩
  rw [alphaOf, BitVec.toNat_ofNat, Nat.mod_eq_of_lt hn32, List.getD_eq_getElem _ _ hn]

/-- No two symbols share a code where `ALPHA31` is none of the other 31. -/
theorem alphaOf_injective {cfg : Config} (h : cfg.alpha31 ∉ alphaPrinted) : Function.Injective (alphaOf cfg) := by
  intro i j hij
  have hget : (alphaTable cfg)[i.toNat]? = (alphaTable cfg)[j.toNat]? := by
    rw [alphaTable_getElem?, alphaTable_getElem?, hij]
  exact BitVec.eq_of_toNat_eq ((List.getElem?_inj i.isLt (alphaTable_nodup h)).mp hget)

/-- A code of the table is uppercase only where `ALPHA31` is. -/
theorem alphaOf_not_upper {cfg : Config} (h : isUpper cfg.alpha31 = false) (i : Symbol) : isUpper (alphaOf cfg i) = false := by
  obtain hmem | heq := mem_alphaTable.mp (alphaOf_mem cfg i)
  · exact alphaPrinted_not_upper _ hmem
  · rwa [heq]

/-- A code of the table is below `0x80` where `ALPHA31` is. -/
theorem alphaOf_low {cfg : Config} (h : cfg.alpha31.toNat < 0x80) (i : Symbol) : (alphaOf cfg i).toNat < 0x80 := by
  obtain hmem | heq := mem_alphaTable.mp (alphaOf_mem cfg i)
  · exact alphaPrinted_low _ hmem
  · rwa [heq]

/-! ### Which `ALPHA31` is legal (U3, D8, log entry 7) -/

/-- U3 compares after folding; the printed codes are folded, so `ALPHA31` itself is none of them either. -/
theorem alpha31_not_mem_of_foldCase {a : Byte} (h : foldCase a ∉ alphaPrinted) : a ∉ alphaPrinted := by
  intro hmem
  rw [(foldCase_eq_self_iff a).mpr (alphaPrinted_not_upper a hmem)] at h
  exact h hmem

theorem legalConfig_iff {cfg : Config} :
    legalConfig cfg = true ↔ cfg.alpha31.toNat < 0x80 ∧ foldCase cfg.alpha31 = cfg.alpha31 ∧ cfg.alpha31 ∉ alphaPrinted := by
  simp [legalConfig, and_assoc]

/-- Every code of a legal table is left alone by the fold. -/
theorem foldCase_alphaOf {cfg : Config} (h : foldCase cfg.alpha31 = cfg.alpha31) (i : Symbol) :
    foldCase (alphaOf cfg i) = alphaOf cfg i :=
  (foldCase_eq_self_iff _).mpr (alphaOf_not_upper ((foldCase_eq_self_iff _).mp h) i)

/-! ### The lookup of a code (R77) -/

/-- The symbol found has the folded code as its own. -/
theorem alphaOf_of_symbolOf {cfg : Config} {c : Byte} {i : Symbol} (h : symbolOf cfg c = some i) : alphaOf cfg i = foldCase c := by
  obtain ⟨n, hn, rfl⟩ := Option.map_eq_some_iff.mp h
  obtain ⟨hlt, hcode, -⟩ := List.findIdx?_eq_some_iff_getElem.mp hn
  have hn32 : n < 32 := hlt
  rw [alphaOf, BitVec.toNat_ofNat, Nat.mod_eq_of_lt hn32, List.getD_eq_getElem _ _ hlt]
  exact beq_iff_eq.mp hcode

theorem symbolOf_eq_none_iff {cfg : Config} {c : Byte} : symbolOf cfg c = none ↔ foldCase c ∉ alphaTable cfg := by
  rw [symbolOf_eq_none]
  exact ⟨fun h hmem => h _ hmem rfl, fun h a ha hac => h (hac ▸ ha)⟩

/-- A code has a symbol exactly when its fold is in the table. -/
theorem symbolOf_isSome {cfg : Config} {c : Byte} : (symbolOf cfg c).isSome = true ↔ foldCase c ∈ alphaTable cfg := by
  rw [Option.isSome_iff_ne_none, ne_eq, symbolOf_eq_none_iff, not_not]

/-- Where `ALPHA31` is none of the other 31 codes, the lookup is the inverse of `ALPHA` on folded codes. -/
theorem symbolOf_eq_some_iff {cfg : Config} (h : cfg.alpha31 ∉ alphaPrinted) {c : Byte} {i : Symbol} :
    symbolOf cfg c = some i ↔ alphaOf cfg i = foldCase c := by
  refine ⟨alphaOf_of_symbolOf, fun hi => ?_⟩
  obtain ⟨j, hj⟩ := Option.isSome_iff_exists.mp (symbolOf_isSome.mpr (hi ▸ alphaOf_mem cfg i))
  rw [hj, alphaOf_injective h ((alphaOf_of_symbolOf hj).trans hi.symm)]

theorem symbolOf_alphaOf {cfg : Config} (h : legalConfig cfg = true) (i : Symbol) : symbolOf cfg (alphaOf cfg i) = some i := by
  obtain ⟨-, hfold, hprinted⟩ := legalConfig_iff.mp h
  exact (symbolOf_eq_some_iff hprinted).mpr (foldCase_alphaOf hfold i).symm

/-! ### What `A2S` and `S2A` leave (R77, R78) -/

/-- The word that returns one data item (R56). -/
theorem responseWord_ok1 (d : Byte) : responseWord (.ok1 d) = 0x04000000 ||| d.setWidth 32 := by
  revert d; decide

/-- The symbol operand spelled as a byte is that symbol (R57). -/
theorem operandSymbol_setWidth : ∀ i : Symbol, operandSymbol (i.setWidth 8) = some i := by decide

/-! The word that returns a symbol says which symbol, and is no error word. -/

theorem symbolWord_injective :
    ∀ i j : Symbol, (0x04000000 : RspWord) ||| i.setWidth 32 = 0x04000000 ||| j.setWidth 32 → i = j := by decide

theorem symbolWord_ne_invalidCharacter : ∀ i : Symbol, (0x10000000 : RspWord) ≠ 0x04000000 ||| i.setWidth 32 := by decide

theorem symbolWord_errorCode : ∀ i : Symbol, ((0x04000000 : RspWord) ||| i.setWidth 32).extractLsb' 28 4 = 0 := by decide

section Completes
variable {s : State} (h : s.Inv)
include h

theorem exec_a2s_of_some {c : Byte} {i : Symbol} (hi : symbolOf s.config c = some i) :
    exec (.a2s c) s = .next { s with responses := s.responses ++ [0x04000000 ||| i.setWidth 32] } := by
  rw [exec, execA2s, whenRegrouperOk_of_ok h, hi, ← responseWord_symbol]
  rfl

theorem exec_a2s_of_none {c : Byte} (hc : symbolOf s.config c = none) :
    exec (.a2s c) s = .next { s with err := s.err ||| 0b0001, responses := s.responses ++ [0x10000000] } := by
  rw [exec, execA2s, whenRegrouperOk_of_ok h, hc]
  rfl

theorem exec_s2a_of_some {v : Byte} {i : Symbol} (hv : operandSymbol v = some i) :
    exec (.s2a v) s = .next { s with responses := s.responses ++ [0x04000000 ||| (alphaOf s.config i).setWidth 32] } := by
  rw [exec, execS2a, whenRegrouperOk_of_ok h, hv, ← responseWord_ok1]
  rfl

theorem exec_s2a_of_none {v : Byte} (hv : operandSymbol v = none) :
    exec (.s2a v) s = .next { s with err := s.err ||| 0b0010, responses := s.responses ++ [0x20000000] } := by
  rw [exec, execS2a, whenRegrouperOk_of_ok h, hv]
  rfl

end Completes

/-- A command that only answers changes no register. -/
theorem sameRegisters_withResponses (s : State) (rs : List RspWord) : SameRegisters { s with responses := rs } s :=
  ⟨rfl, rfl, rfl, rfl, rfl, rfl⟩

/-- The answer of an `A2S` that returned a symbol is the lookup's. -/
theorem symbolOf_of_exec_a2s {c : Byte} {i : Symbol} {s t : State} (h : exec (.a2s c) s = .next t)
    (hr : t.responses = s.responses ++ [0x04000000 ||| i.setWidth 32]) : symbolOf s.config c = some i := by
  have hs : s.Inv := inv_of_exec_next h
  cases hc : symbolOf s.config c with
  | none =>
    cases (exec_a2s_of_none hs hc).symm.trans h
    exact absurd (List.singleton_inj.mp (List.append_cancel_left hr)) (symbolWord_ne_invalidCharacter i)
  | some j =>
    cases (exec_a2s_of_some hs hc).symm.trans h
    rw [symbolWord_injective j i (List.singleton_inj.mp (List.append_cancel_left hr))]

/-! ### How many codes `A2S` accepts (R77) -/

/-- The 256 operand values of forms B and S, in order. -/
def allBytes : List Byte := (List.range 256).map (BitVec.ofNat 8)

theorem countP_range_ofNat (p : Byte → Bool) : ((List.range 256).countP fun n => p (BitVec.ofNat 8 n)) = allBytes.countP p :=
  List.countP_map.symm

theorem allBytes_nodup : allBytes.Nodup :=
  List.nodup_range.map_on fun m hm n hn hmn => by
    have hval := congrArg BitVec.toNat hmn
    rwa [BitVec.toNat_ofNat, BitVec.toNat_ofNat, Nat.mod_eq_of_lt (List.mem_range.mp hm), Nat.mod_eq_of_lt (List.mem_range.mp hn)]
      at hval

theorem mem_allBytes (c : Byte) : c ∈ allBytes :=
  List.mem_map.mpr ⟨c.toNat, List.mem_range.mpr c.isLt, by simp⟩

theorem countP_allBytes_eq (a : Byte) : allBytes.countP (fun c => c == a) = 1 :=
  List.count_eq_one_of_mem allBytes_nodup (mem_allBytes a)

/-- Counting either of two conditions that exclude each other. -/
theorem countP_or_of_disjoint {α : Type} {p q : α → Bool} (h : ∀ x, p x = true → q x = false) (l : List α) :
    l.countP (fun x => p x || q x) = l.countP p + l.countP q := by
  induction l with
  | nil => rfl
  | cons x l ih =>
    rw [List.countP_cons, List.countP_cons, List.countP_cons, ih]
    cases hp : p x with
    | false => simp; omega
    | true => simp [h x hp]; omega

/-- A folded code is the fold of two codes if it is a letter, and of itself only if it is not. -/
theorem countP_foldCase_eq {a : Byte} (ha : foldCase a = a) :
    allBytes.countP (fun c => foldCase c == a) = if isLower a then 2 else 1 := by
  have hfold (c : Byte) : (foldCase c == a) = (c == a || isLower a && c == a - 0x20) := by
    rw [Bool.eq_iff_iff]
    simpa using foldCase_eq_iff ha c
  simp only [hfold]
  cases isLower a with
  | false => simpa using countP_allBytes_eq a
  | true =>
    have hne (c : Byte) (hc : (c == a) = true) : (c == a - 0x20) = false := by
      obtain rfl := beq_iff_eq.mp hc
      exact beq_eq_false_iff_ne.mpr (by bv_omega)
    simp only [Bool.true_and, countP_or_of_disjoint hne, countP_allBytes_eq]
    rfl

/-- The 31 printed codes, 22 of them letters, are the folds of 53 codes. -/
theorem countP_foldCase_printed : allBytes.countP (fun c => alphaPrinted.contains (foldCase c)) = 53 := by decide +kernel

/-- To those a legal `ALPHA31` adds its own code and, if it is a letter, its uppercase form. -/
theorem countP_symbolOf_isSome {cfg : Config} (h : legalConfig cfg = true) :
    allBytes.countP (fun c => (symbolOf cfg c).isSome) = 53 + if isLower cfg.alpha31 then 2 else 1 := by
  obtain ⟨-, hfold, hprinted⟩ := legalConfig_iff.mp h
  have hsome (c : Byte) : (symbolOf cfg c).isSome = (alphaPrinted.contains (foldCase c) || foldCase c == cfg.alpha31) := by
    rw [Bool.eq_iff_iff, symbolOf_isSome, mem_alphaTable]
    simp
  have hdisjoint (c : Byte) (hc : alphaPrinted.contains (foldCase c) = true) : (foldCase c == cfg.alpha31) = false := by
    rw [beq_eq_false_iff_ne]
    intro heq
    exact hprinted (heq ▸ List.contains_iff_mem.mp hc)
  simp only [hsome, countP_or_of_disjoint hdisjoint, countP_foldCase_printed, countP_foldCase_eq hfold]

theorem countP_symbolOf_isNone {cfg : Config} (h : legalConfig cfg = true) :
    allBytes.countP (fun c => (symbolOf cfg c).isNone) = 256 - (53 + if isLower cfg.alpha31 then 2 else 1) := by
  have hall := allBytes.length_eq_countP_add_countP fun c => (symbolOf cfg c).isSome
  have hlength : allBytes.length = 256 := by simp [allBytes]
  rw [countP_symbolOf_isSome h, hlength] at hall
  simp only [Bool.not_eq_true, Option.isSome_eq_false_iff, Bool.decide_eq_true] at hall
  omega

/-! ### The statements -/

/-- Settles O30: the lookup answers the symbol of the folded code, or none (`symbolOf_eq_some_iff`, `symbolOf_eq_none_iff`). -/
theorem a2sLooksTheFoldedCodeUp : Obligations.A2sLooksTheFoldedCodeUp := by
  refine ⟨fun c => ?_, fun c c' s hs _ hu3 hc' => ?_, fun cfg hlow hu3 => ⟨?_, fun c hc i hi => ?_⟩⟩
  · rw [← encode_a2s]
    exact decode_encode _
  · rw [← foldCase_eq_ite] at hc'
    subst hc'
    have hprinted := alpha31_not_mem_of_foldCase hu3
    refine ⟨fun i hi => exec_a2s_of_some hs ((symbolOf_eq_some_iff hprinted).mpr hi), fun hnone => ?_⟩
    refine exec_a2s_of_none hs (symbolOf_eq_none_iff.mpr fun hmem => ?_)
    obtain ⟨i, hi⟩ := exists_alphaOf_of_mem hmem
    exact hnone i hi
  · exact alphaOf_injective (alpha31_not_mem_of_foldCase hu3)
  · have hlow' : c.toNat < 0x80 := hi ▸ alphaOf_low hlow i
    omega

/-- Settles O31: the accepted and the refused codes are those with and without a symbol, counted over the table. -/
theorem a2sAcceptsFiftyFiveCodes : Obligations.A2sAcceptsFiftyFiveCodes := by
  intro s count hs hlegal hcount
  obtain ⟨-, hfold, hprinted⟩ := legalConfig_iff.mp hlegal
  have hnumber : count = 53 + if isLower s.config.alpha31 then 2 else 1 := by
    simp only [hcount, isLower_iff]
    split <;> rfl
  have hlast {c : Byte} (hc : foldCase c = s.config.alpha31) :
      exec (.a2s c) s = .next { s with responses := s.responses ++ [0x0400001F] } :=
    exec_a2s_of_some hs ((symbolOf_eq_some_iff hprinted).mpr ((alphaOf_last s.config).trans hc.symm))
  refine ⟨?_, ?_, hlast hfold, fun h55 => hlast (foldCase_sub_of_isLower _ ?_), fun hl c hc => ?_⟩
  · rw [hnumber, ← countP_symbolOf_isSome hlegal, ← countP_range_ofNat, ← List.countP_eq_length_filter]
    refine List.countP_congr fun n _ => ?_
    cases hn : symbolOf s.config (BitVec.ofNat 8 n) with
    | none => simp [exec_a2s_of_none hs hn]
    | some i => simpa [exec_a2s_of_some hs hn] using symbolWord_errorCode i
  · rw [hnumber, ← countP_symbolOf_isNone hlegal, ← countP_range_ofNat, ← List.countP_eq_length_filter]
    refine List.countP_congr fun n _ => ?_
    cases hn : symbolOf s.config (BitVec.ofNat 8 n) with
    | none => simp [exec_a2s_of_none hs hn]
    | some i => simpa [exec_a2s_of_some hs hn] using (symbolWord_ne_invalidCharacter i).symm
  · by_contra hnot
    rw [hnumber, if_neg hnot] at h55
    omega
  · have hc' : foldCase c = 0x6C := by obtain rfl | rfl := hc <;> rfl
    refine exec_a2s_of_none hs (symbolOf_eq_none_iff.mpr ?_)
    rw [hc', mem_alphaTable]
    rintro (hmem | heq)
    · exact absurd hmem (by decide)
    · exact hl heq.symm

/-- Settles O33: through the lookup and `ALPHA` (`symbolOf_alphaOf`, `alphaOf_of_symbolOf`), each command's answer being theirs. -/
theorem alphabetLookupsAreInverse : Obligations.AlphabetLookupsAreInverse := by
  refine ⟨fun cfg i h => symbolOf_alphaOf h i, fun cfg c i => alphaOf_of_symbolOf, fun i s hs hlegal => ?_,
    fun c i s t hs _ hexec hr => ?_, fun i s s' hi hs hs' hconfig => ?_⟩
  · have hs2a := exec_s2a_of_some hs (operandSymbol_setWidth i)
    have ht := (exec_answers _ s _ hs2a).inv hs
    exact ⟨alphaOf s.config i, _, _, hs2a, rfl, exec_a2s_of_some ht (symbolOf_alphaOf hlegal i), rfl,
      sameRegisters_withResponses s _, sameRegisters_withResponses s _⟩
  · have hsymbol := symbolOf_of_exec_a2s hexec hr
    have ht := (exec_answers _ s t hexec).inv hs
    cases (exec_a2s_of_some hs hsymbol).symm.trans hexec
    refine ⟨_, exec_s2a_of_some ht (operandSymbol_setWidth i), ?_, sameRegisters_withResponses s _,
      sameRegisters_withResponses s _⟩
    rw [← alphaOf_of_symbolOf hsymbol]
  · obtain ⟨t, ht⟩ := exec_completes i hs
    obtain ⟨t', ht'⟩ := exec_completes i hs'
    have hunit : unitOf i = 1 := by obtain ⟨c, rfl⟩ | ⟨v, rfl⟩ := hi <;> simp
    have hsame : SameOn (unitOf i) s s' := ⟨by simp [hunit], by simp [hunit]⟩
    obtain ⟨r, hr, hr'⟩ := (exec_runsAlike (by simp [hunit]) hconfig.symm hsame t t' ht ht').responses
    exact ⟨t, t', r, ht, ht', hr, hr'⟩

/-- Settles O32: the table written out is the block's own, and position `v` holds the code of the symbol `v`. -/
theorem s2aReturnsTheCodeOfTheSymbol : Obligations.S2aReturnsTheCodeOfTheSymbol := by
  refine ⟨fun v => ?_, fun v a s hs hv ha => ?_, fun v s hs hv => exec_s2a_of_none hs (operandSymbol_of_gt hv)⟩
  · rw [← encode_s2a]
    exact decode_encode _
  · have hindex : (v.setWidth 5).toNat = v.toNat := by simp; omega
    have hentry : (alphaTable s.config)[v.toNat]? = some a := ha
    have hcode : alphaOf s.config (v.setWidth 5) = a := by
      rw [← hindex, alphaTable_getElem?] at hentry
      exact Option.some.inj hentry
    subst hcode
    refine ⟨exec_s2a_of_some hs (operandSymbol_of_le hv), fun hupper => ?_⟩
    rw [← isUpper_iff, Bool.not_eq_true] at hupper ⊢
    exact alphaOf_not_upper hupper _

end Sys2Proof.Machine
end

section
/-! ## The regrouper: bit strings cut into values, the three commands, streaming against `convertBits`

A conversion is arithmetic on one bit string, given as its value and its length: `bitString` joins the input values, `regrouped` cuts
the output values off its front and applies the padding rule to the rest. Both sides compute it: `convertBits` on the whole string
(`convertBits_of_lt`), the commands push by push, since a string may be regrouped in two parts (`regrouped_split`). -/

namespace Sys2Proof

/-! ### The words of the three commands (R62, R66) -/

theorem encode_rinit (m : BitVec 2) : encode (.rinit m) = 0x2000 ||| m.setWidth 16 := by revert m; decide

theorem encode_rpush (v : Byte) : encode (.rpush v) = 0x2100 ||| v.setWidth 16 := cmdWord_eq_or 0x21 v

end Sys2Proof

namespace Sys2Proof.Machine

/-! ### Values as fixed-width digits of a number -/

/-- The lowest `n` values of `w` bits in `x`, the most significant first. -/
def digits (w : Nat) : Nat → Nat → List Nat
  | 0, _ => []
  | n + 1, x => x / 2 ^ (w * n) % 2 ^ w :: digits w n x

/-- The number read with the values `vs` of `w` bits appended to `acc`: what R85 calls `acc` after pushing them. -/
def bitString (w acc : Nat) (vs : List Nat) : Nat := vs.foldl (fun a v => a * 2 ^ w + v) acc

@[simp] theorem bitString_nil (w acc : Nat) : bitString w acc [] = acc := rfl

@[simp] theorem bitString_cons (w acc v : Nat) (vs : List Nat) :
    bitString w acc (v :: vs) = bitString w (acc * 2 ^ w + v) vs := rfl

@[simp] theorem digits_length (w n x : Nat) : (digits w n x).length = n := by
  induction n with
  | zero => rfl
  | succ n ih => rw [digits, List.length_cons, ih]

theorem lt_of_mem_digits {w n x d : Nat} (h : d ∈ digits w n x) : d < 2 ^ w := by
  induction n with
  | zero => cases h
  | succ n ih =>
    obtain rfl | h := List.mem_cons.mp h
    · exact Nat.mod_lt _ (Nat.two_pow_pos w)
    · exact ih h

theorem digits_add (w m n x : Nat) : digits w (m + n) x = digits w m (x / 2 ^ (w * n)) ++ digits w n x := by
  induction m with
  | zero => rw [Nat.zero_add, digits, List.nil_append]
  | succ m ih =>
    rw [Nat.add_right_comm, digits, digits, ih, List.cons_append, Nat.div_div_eq_div_mul, ← pow_add, ← Nat.mul_add,
      Nat.add_comm n m]

/-- Bits above the `n` values do not matter. -/
theorem digits_mod (w n x : Nat) {k : Nat} (hk : w * n ≤ k) : digits w n (x % 2 ^ k) = digits w n x := by
  induction n with
  | zero => rfl
  | succ n ih =>
    have hw : w * n + w ≤ k := hk
    obtain ⟨j, rfl⟩ := Nat.exists_eq_add_of_le hw
    rw [digits, digits, ih (by omega), Nat.add_assoc, pow_add, Nat.mod_mul_right_div_self,
      Nat.mod_mod_of_dvd _ (pow_dvd_pow 2 (Nat.le_add_right w j))]

/-- Joining the digits of a number gives it back. -/
theorem bitString_digits (w acc n x : Nat) : bitString w acc (digits w n x) = acc * 2 ^ (w * n) + x % 2 ^ (w * n) := by
  induction n generalizing acc with
  | zero => simp [digits, Nat.mod_one]
  | succ n ih =>
    rw [digits, bitString_cons, ih, Nat.mul_succ, pow_add, Nat.mod_mul]
    ring

section Joined
variable {w : Nat} {vs : List Nat} (h : ∀ v ∈ vs, v < 2 ^ w)
include h

/-- What was there before stays above the values appended. -/
theorem bitString_div (acc b : Nat) : bitString w acc vs / 2 ^ (w * vs.length + b) = acc / 2 ^ b := by
  induction vs generalizing acc b with
  | nil => rw [List.length_nil, Nat.mul_zero, Nat.zero_add, bitString_nil]
  | cons v vs ih =>
    obtain ⟨hv, hvs⟩ := List.forall_mem_cons.mp h
    rw [bitString_cons, List.length_cons, Nat.mul_succ, Nat.add_assoc, ih hvs, pow_add, ← Nat.div_div_eq_div_mul,
      Nat.mul_comm acc, Nat.mul_add_div (Nat.two_pow_pos w), Nat.div_eq_of_lt hv, Nat.add_zero]

/-- Of what was there before, the low bits are those above the values appended. -/
theorem bitString_mod (acc b : Nat) : bitString w acc vs % 2 ^ (w * vs.length + b) = bitString w (acc % 2 ^ b) vs := by
  induction vs generalizing acc b with
  | nil => rw [List.length_nil, Nat.mul_zero, Nat.zero_add, bitString_nil, bitString_nil]
  | cons v vs ih =>
    obtain ⟨hv, hvs⟩ := List.forall_mem_cons.mp h
    have hlow : (acc * 2 ^ w + v) % 2 ^ (w + b) = acc % 2 ^ b * 2 ^ w + v := by
      rw [pow_add, Nat.mod_mul, Nat.mul_comm acc, Nat.mul_add_mod, Nat.mul_add_div (Nat.two_pow_pos w), Nat.div_eq_of_lt hv,
        Nat.mod_eq_of_lt hv, Nat.add_zero, Nat.add_comm, Nat.mul_comm]
    rw [bitString_cons, bitString_cons, List.length_cons, Nat.mul_succ, Nat.add_assoc, ih hvs, hlow]

theorem bitString_lt : bitString w 0 vs < 2 ^ (w * vs.length) := by
  have hdiv := bitString_div h 0 0
  rw [Nat.zero_div] at hdiv
  exact Nat.lt_of_div_eq_zero (Nat.two_pow_pos _) hdiv

/-- The digits of joined values are the values. -/
theorem digits_bitString (acc : Nat) : digits w vs.length (bitString w acc vs) = vs := by
  induction vs generalizing acc with
  | nil => rfl
  | cons v vs ih =>
    obtain ⟨hv, hvs⟩ := List.forall_mem_cons.mp h
    have hhead : bitString w (acc * 2 ^ w + v) vs / 2 ^ (w * vs.length) = acc * 2 ^ w + v := by
      simpa using bitString_div hvs (acc * 2 ^ w + v) 0
    rw [bitString_cons, List.length_cons, digits, ih hvs, hhead, Nat.mul_comm acc, Nat.mul_add_mod, Nat.mod_eq_of_lt hv]

end Joined

/-! ### A bit string regrouped: the whole values, then the padding rule -/

/-- The whole values of `w` bits at the front of the `l` low bits of `a`. -/
def wholeValues (w a l : Nat) : List Nat := digits w (l / w) (a / 2 ^ (l % w))

/-- The padding rule for `bits` leftover bits of value `acc` (R85, R89): what ends the output, or the fault. -/
def paddingRule (fromBits toBits : Nat) (strict : Bool) (acc bits : Nat) : Except FaultKind (List Nat) :=
  if strict then if fromBits ≤ bits ∨ acc ≠ 0 then .error .invalidPadding else .ok []
  else .ok (if 0 < bits then [acc * 2 ^ (toBits - bits)] else [])

/-- The `l` low bits of `a` regrouped to values of `toBits` bits. -/
def regrouped (fromBits toBits : Nat) (strict : Bool) (a l : Nat) : Except FaultKind (List Nat) :=
  (paddingRule fromBits toBits strict (a % 2 ^ (l % toBits)) (l % toBits)).map (wholeValues toBits a l ++ ·)

theorem lt_of_mem_wholeValues {w a l d : Nat} (h : d ∈ wholeValues w a l) : d < 2 ^ w := lt_of_mem_digits h

@[simp] theorem wholeValues_length (w a l : Nat) : (wholeValues w a l).length = l / w := digits_length _ _ _

/-- Fewer bits than a value has hold no whole value. -/
theorem wholeValues_of_lt {w l : Nat} (h : l < w) (a : Nat) : wholeValues w a l = [] := by
  rw [wholeValues, Nat.div_eq_of_lt h, digits]

theorem wholeValues_add {w : Nat} (hw : 0 < w) (a m l : Nat) :
    wholeValues w a (w * m + l) = digits w m (a / 2 ^ l) ++ wholeValues w a l := by
  rw [wholeValues, Nat.mul_add_div hw, Nat.mul_add_mod, digits_add, Nat.div_div_eq_div_mul, ← pow_add, Nat.mod_add_div, wholeValues]

theorem wholeValues_mod (w a l : Nat) : wholeValues w (a % 2 ^ l) l = wholeValues w a l := by
  have hsplit : 2 ^ l = 2 ^ (l % w) * 2 ^ (w * (l / w)) := by rw [← pow_add, Nat.mod_add_div]
  rw [wholeValues, wholeValues, hsplit, Nat.mod_mul_right_div_self, digits_mod _ _ _ le_rfl]

section Regrouped
variable {fromBits toBits : Nat}

/-- A string shorter than an output value is all leftover. -/
theorem regrouped_of_lt {l : Nat} (h : l < toBits) (strict : Bool) (a : Nat) :
    regrouped fromBits toBits strict a l = paddingRule fromBits toBits strict (a % 2 ^ l) l := by
  rw [regrouped, wholeValues_of_lt h, Nat.mod_eq_of_lt h]
  exact congrFun Except.map_id _

theorem paddingRule_ok {strict : Bool} {acc bits : Nat} {d : List Nat} (h : paddingRule fromBits toBits strict acc bits = .ok d) :
    d = [] ∨ d = [acc * 2 ^ (toBits - bits)] := by
  rw [paddingRule] at h
  split_ifs at h <;> cases h <;> simp

/-- Regrouping may be done in two parts: whole values off the front first, then the rest. -/
theorem regrouped_split (hto : 0 < toBits) (strict : Bool) (a m l : Nat) :
    regrouped fromBits toBits strict a (toBits * m + l) =
      (regrouped fromBits toBits strict (a % 2 ^ l) l).map (digits toBits m (a / 2 ^ l) ++ ·) := by
  have hrest : a % 2 ^ l % 2 ^ (l % toBits) = a % 2 ^ (l % toBits) := Nat.mod_mod_of_dvd _ (pow_dvd_pow 2 (Nat.mod_le l toBits))
  rw [regrouped, regrouped, wholeValues_add hto, wholeValues_mod, Nat.mul_add_mod, hrest]
  cases paddingRule fromBits toBits strict (a % 2 ^ (l % toBits)) (l % toBits) with
  | error k => rfl
  | ok d => exact congrArg Except.ok (List.append_assoc _ _ _)

/-- Leniently, `p` zero bits fill the string up to whole values. -/
theorem regrouped_lenient {n l p : Nat} (hn : toBits * n = l + p) (hp : p < toBits) (a : Nat) :
    regrouped fromBits toBits false a l = .ok (digits toBits n (a * 2 ^ p)) := by
  obtain rfl | hpos := Nat.eq_zero_or_pos p
  · obtain rfl : toBits * n = l := hn
    simp [regrouped, paddingRule, wholeValues, Nat.mul_div_cancel_left n hp, Except.map]
  · obtain ⟨b, rfl⟩ : ∃ b, toBits = b + p := Nat.exists_eq_add_of_le' hp.le
    obtain ⟨m, rfl⟩ : ∃ m, n = m + 1 := Nat.exists_eq_succ_of_ne_zero (by rintro rfl; omega)
    obtain rfl : l = (b + p) * m + b := by rw [Nat.mul_succ] at hn; omega
    have hmod : ((b + p) * m + b) % (b + p) = b := by rw [Nat.mul_add_mod, Nat.mod_eq_of_lt (by omega)]
    have hdiv : ((b + p) * m + b) / (b + p) = m := by
      rw [Nat.mul_add_div (by omega), Nat.div_eq_of_lt (by omega), Nat.add_zero]
    have hfront : a * 2 ^ p / 2 ^ ((b + p) * 1) = a / 2 ^ b := by
      rw [Nat.mul_one, pow_add, Nat.mul_div_mul_right _ _ (Nat.two_pow_pos p)]
    have hlast : digits (b + p) 1 (a * 2 ^ p) = [a % 2 ^ b * 2 ^ p] := by
      rw [digits, digits, Nat.mul_zero, pow_zero, Nat.div_one, pow_add, Nat.mul_mod_mul_right]
    rw [regrouped, paddingRule, wholeValues, hmod, hdiv, digits_add, hfront, hlast, if_neg Bool.false_ne_true,
      if_pos (by omega), Nat.add_sub_cancel_left]
    rfl

/-- Strictly, the leftover must be all zeros and shorter than an input value. -/
theorem regrouped_strict_eq_ok {a l : Nat} {out : List Nat} :
    regrouped fromBits toBits true a l = .ok out ↔
      (l % toBits < fromBits ∧ a % 2 ^ (l % toBits) = 0) ∧ wholeValues toBits a l = out := by
  have hcanonical : (l % toBits < fromBits ∧ a % 2 ^ (l % toBits) = 0) ↔
      ¬ (fromBits ≤ l % toBits ∨ a % 2 ^ (l % toBits) ≠ 0) := by rw [not_or, Nat.not_le, not_ne_iff]
  rw [regrouped, paddingRule, if_pos rfl, hcanonical]
  split <;> rename_i h <;> simp [Except.map, h]

end Regrouped

/-! ### `convertBits` in arithmetic (R85) -/

/-- The inner loop of R85 cuts the whole values off the front. -/
theorem emitNats_eq {w : Nat} (hw : 0 < w) (a n b : Nat) (h : b < (n + 1) * w) :
    emitNats w a n b = (wholeValues w a b, b % w) := by
  induction n generalizing b with
  | zero =>
    have hb : b < w := by omega
    rw [emitNats, wholeValues_of_lt hb, Nat.mod_eq_of_lt hb]
  | succ n ih =>
    rw [emitNats]
    split
    · next hle =>
      obtain ⟨c, rfl⟩ := Nat.exists_eq_add_of_le hle
      have hrest : c < (n + 1) * w := by rw [Nat.succ_mul] at h; omega
      have hvalues : wholeValues w a (w + c) = a / 2 ^ c % 2 ^ w :: wholeValues w a c := by
        simpa [digits] using wholeValues_add hw a 1 c
      rw [Nat.add_sub_cancel_left, ih c hrest, hvalues, Nat.shiftRight_eq_div_pow, Nat.and_two_pow_sub_one_eq_mod,
        Nat.add_mod_left]
    · next hlt =>
      have hb : b < w := Nat.not_le.mp hlt
      rw [wholeValues_of_lt hb, Nat.mod_eq_of_lt hb]

theorem shiftRight_eq_zero_iff_lt (v w : Nat) : v >>> w = 0 ↔ v < 2 ^ w := by
  rw [Nat.shiftRight_eq_div_pow, Nat.div_eq_zero_iff, or_iff_right (Nat.two_pow_pos w).ne']

theorem shiftLeft_or_of_lt {v w : Nat} (hv : v < 2 ^ w) (a : Nat) : a <<< w ||| v = a * 2 ^ w + v := by
  rw [← Nat.shiftLeft_add_eq_or_of_lt hv, Nat.shiftLeft_eq]

section ConvertBits
variable {fromBits toBits : Nat} {vs : List Nat}

/-- With one value more, the string is the whole values of the leftover bits and that value, then what the others follow. -/
theorem length_cons_split (toBits v bits : Nat) :
    fromBits * (v :: vs).length + bits =
      toBits * ((bits + fromBits) / toBits) + (fromBits * vs.length + (bits + fromBits) % toBits) := by
  rw [List.length_cons, Nat.mul_succ, Nat.add_left_comm, Nat.div_add_mod]
  omega

/-- The outer loop of R85 joins the input values and cuts the output values off the front of the string. -/
theorem convertLoop_of_lt (hto : 0 < toBits) (h : ∀ v ∈ vs, v < 2 ^ fromBits) (acc : Nat) {bits : Nat} (hbits : bits < toBits) :
    convertLoop fromBits toBits vs acc bits =
      some (wholeValues toBits (bitString fromBits acc vs) (fromBits * vs.length + bits), bitString fromBits acc vs,
        (fromBits * vs.length + bits) % toBits) := by
  induction vs generalizing acc bits with
  | nil => simp [convertLoop, wholeValues_of_lt hbits, Nat.mod_eq_of_lt hbits]
  | cons v vs ih =>
    obtain ⟨hv, hvs⟩ := List.forall_mem_cons.mp h
    have hround : bits + fromBits < (bits + fromBits + 1) * toBits :=
      (Nat.lt_succ_self _).trans_le (Nat.le_mul_of_pos_right _ hto)
    rw [convertLoop, if_neg (not_ne_iff.mpr ((shiftRight_eq_zero_iff_lt v fromBits).mpr hv)), length_cons_split toBits,
      wholeValues_add hto, Nat.mul_add_mod, bitString_cons, bitString_div hvs, shiftLeft_or_of_lt hv]
    simp only [emitNats_eq hto _ _ _ hround, ih hvs _ (Nat.mod_lt _ hto), wholeValues]

theorem convertLoop_of_not_lt (h : ¬ ∀ v ∈ vs, v < 2 ^ fromBits) (acc bits : Nat) :
    convertLoop fromBits toBits vs acc bits = none := by
  induction vs generalizing acc bits with
  | nil => exact absurd (List.forall_mem_nil _) h
  | cons v vs ih =>
    rw [convertLoop]
    split
    · rfl
    · next hv =>
      have hvs : ¬ ∀ v ∈ vs, v < 2 ^ fromBits := fun hvs =>
        h (List.forall_mem_cons.mpr ⟨(shiftRight_eq_zero_iff_lt v fromBits).mp (not_ne_iff.mp hv), hvs⟩)
      simp only [ih hvs]

/-- `convertBits` regroups the joined input values. -/
theorem convertBits_of_lt (hto : 0 < toBits) (h : ∀ v ∈ vs, v < 2 ^ fromBits) (strict : Bool) :
    convertBits vs fromBits toBits strict =
      regrouped fromBits toBits strict (bitString fromBits 0 vs) (fromBits * vs.length) := by
  have hpad {acc bits : Nat} (hbits : bits < toBits) :
      (acc % 2 ^ bits) <<< (toBits - bits) % 2 ^ toBits = acc % 2 ^ bits * 2 ^ (toBits - bits) := by
    have hsplit : 2 ^ toBits = 2 ^ bits * 2 ^ (toBits - bits) := by rw [← pow_add, Nat.add_sub_cancel' hbits.le]
    rw [Nat.shiftLeft_eq, hsplit, Nat.mul_mod_mul_right, Nat.mod_mod]
  have hzero (x k : Nat) : x * 2 ^ k ≠ 0 ↔ x ≠ 0 := by simp
  rw [convertBits, convertLoop_of_lt hto h 0 hto]
  simp only [Nat.add_zero, Nat.and_two_pow_sub_one_eq_mod, hpad (Nat.mod_lt _ hto), hzero, regrouped, paddingRule]
  split_ifs
  · rfl
  · exact congrArg Except.ok (List.append_nil _).symm
  · rfl
  · exact congrArg Except.ok (List.append_nil _).symm

theorem convertBits_of_not_lt (h : ¬ ∀ v ∈ vs, v < 2 ^ fromBits) (strict : Bool) :
    convertBits vs fromBits toBits strict = .error .invalidArgument := by
  rw [convertBits, convertLoop_of_not_lt h]

end ConvertBits

/-! ### Lengths and the way back (R91, R92) -/

/-- A byte is an 8-bit value and a symbol a 5-bit one. -/
theorem toNat_lt_of_mem_map {w : Nat} {l : List (BitVec w)} : ∀ v ∈ l.map BitVec.toNat, v < 2 ^ w := by
  simp only [List.forall_mem_map]
  exact fun v _ => v.isLt

/-- How many values a lenient conversion produces (R91). -/
theorem convertBits_lenient_length {fromBits toBits n p : Nat} {vs : List Nat} (h : ∀ v ∈ vs, v < 2 ^ fromBits)
    (hn : toBits * n = fromBits * vs.length + p) (hp : p < toBits) :
    ∃ out, convertBits vs fromBits toBits false = .ok out ∧ out.length = n :=
  ⟨_, (convertBits_of_lt (by omega) h false).trans (regrouped_lenient hn hp _), digits_length _ _ _⟩

/-- A lenient conversion fills up to whole values, and a strict one back finds the fill as its leftover (R92). -/
theorem convertBits_strict_of_lenient {fromBits toBits n p : Nat} {vs : List Nat} (h : ∀ v ∈ vs, v < 2 ^ fromBits)
    (hn : toBits * n = fromBits * vs.length + p) (hto : p < toBits) (hfrom : p < fromBits) :
    ∃ out, convertBits vs fromBits toBits false = .ok out ∧ convertBits out toBits fromBits true = .ok vs := by
  refine ⟨digits toBits n (bitString fromBits 0 vs * 2 ^ p),
    (convertBits_of_lt (by omega) h false).trans (regrouped_lenient hn hto _), ?_⟩
  have hfits : bitString fromBits 0 vs * 2 ^ p < 2 ^ (toBits * n) := by
    rw [hn, pow_add]
    exact Nat.mul_lt_mul_of_pos_right (bitString_lt h) (Nat.two_pow_pos p)
  have hmod : (fromBits * vs.length + p) % fromBits = p := by rw [Nat.mul_add_mod, Nat.mod_eq_of_lt hfrom]
  have hdiv : (fromBits * vs.length + p) / fromBits = vs.length := by
    rw [Nat.mul_add_div (by omega), Nat.div_eq_of_lt hfrom, Nat.add_zero]
  rw [convertBits_of_lt (by omega) fun _ => lt_of_mem_digits, bitString_digits, Nat.zero_mul, Nat.zero_add,
    Nat.mod_eq_of_lt hfits, digits_length, hn, regrouped_strict_eq_ok, hmod]
  refine ⟨⟨hto, Nat.mul_mod_left _ _⟩, ?_⟩
  rw [wholeValues, hmod, hdiv, Nat.mul_div_cancel _ (Nat.two_pow_pos p)]
  exact digits_bitString h 0

/-! ### The regrouper's loop and registers in arithmetic (R86 to R89) -/

theorem operandDir_eq (m : BitVec 2) : operandDir m = decide (m.toNat % 2 = 1) := by revert m; decide

theorem operandStrict_eq (m : BitVec 2) : operandStrict m = decide (m.toNat / 2 = 1) := by revert m; decide

theorem outMask_eq (dir : Bool) : outMask dir = BitVec.ofNat 8 (2 ^ toWidth dir - 1) := by cases dir <;> rfl

/-- The loop of `RPUSH` is the inner loop of R85 on the 12-bit string. -/
theorem emitWhole_eq (dir : Bool) (a : BitVec 12) (n b : Nat) :
    emitWhole dir a n b =
      ((emitNats (toWidth dir) a.toNat n b).1.map (BitVec.ofNat 8), (emitNats (toWidth dir) a.toNat n b).2) := by
  induction n generalizing b with
  | zero => rfl
  | succ n ih =>
    have hvalue (k : Nat) : (a >>> k).setWidth 8 &&& outMask dir = BitVec.ofNat 8 (a.toNat >>> k &&& (2 ^ toWidth dir - 1)) := by
      rw [BitVec.ofNat_and, outMask_eq]
      rfl
    rw [emitWhole, emitNats, ih, hvalue]
    split <;> rfl

theorem tooWide_iff (dir : Bool) (v : Byte) : tooWide dir v = true ↔ 2 ^ fromWidth dir ≤ v.toNat := by
  have hzero : v >>> fromWidth dir = 0 ↔ v.toNat < 2 ^ fromWidth dir := by
    rw [← shiftRight_eq_zero_iff_lt, ← BitVec.toNat_inj, BitVec.toNat_ushiftRight]
    rfl
  rw [tooWide, bne_iff_ne, ne_eq, hzero, Nat.not_lt]

theorem toWidth_le (dir : Bool) : toWidth dir ≤ 8 := by cases dir <;> decide

/-- An output value is a byte. -/
theorem lt_byte_of_lt_toWidth {dir : Bool} {x : Nat} (h : x < 2 ^ toWidth dir) : x < 2 ^ 8 :=
  h.trans_le (Nat.pow_le_pow_right (by decide) (toWidth_le dir))

theorem fromWidth_add_toWidth (dir : Bool) : fromWidth dir + toWidth dir = 13 := by cases dir <;> rfl

theorem toWidth_pos (dir : Bool) : 0 < toWidth dir := by cases dir <;> decide

/-- Masking keeps the low `b` bits (R88). -/
theorem withLeftover_eq (a : BitVec 12) (b : Nat) (s : State) :
    withLeftover a b s = { s with acc := BitVec.ofNat 7 (a.toNat % 2 ^ b), bits := BitVec.ofNat 3 b } := by
  rw [withLeftover, ← Nat.and_two_pow_sub_one_eq_mod, BitVec.ofNat_and]
  rfl

section Inv
variable {s : State} (h : s.Inv)
include h

theorem State.Inv.registers_fit : s.bits.toNat < toWidth s.dir ∧ s.acc.toNat < 2 ^ s.bits.toNat := by
  simpa [State.Inv, regrouperOk] using h

/-- With a value that fits, the 12-bit string is the leftover bits with the value after them. -/
theorem pushed_toNat {v : Byte} (hv : v.toNat < 2 ^ fromWidth s.dir) :
    (pushed v s).toNat = s.acc.toNat * 2 ^ fromWidth s.dir + v.toNat := by
  obtain ⟨hbits, hacc⟩ := h.registers_fit
  have hwidth : s.bits.toNat + fromWidth s.dir ≤ 12 := by
    have := fromWidth_add_toWidth s.dir
    omega
  have hfits : s.acc.toNat <<< fromWidth s.dir < 2 ^ 12 := by
    rw [Nat.shiftLeft_eq]
    calc s.acc.toNat * 2 ^ fromWidth s.dir < 2 ^ s.bits.toNat * 2 ^ fromWidth s.dir :=
          Nat.mul_lt_mul_of_pos_right hacc (Nat.two_pow_pos _)
      _ = 2 ^ (s.bits.toNat + fromWidth s.dir) := (pow_add _ _ _).symm
      _ ≤ 2 ^ 12 := Nat.pow_le_pow_right (by decide) hwidth
  rw [pushed, BitVec.toNat_or, BitVec.toNat_shiftLeft, BitVec.toNat_setWidth_of_le (by decide),
    BitVec.toNat_setWidth_of_le (by decide), Nat.mod_eq_of_lt hfits, shiftLeft_or_of_lt hv]

theorem pushCount_div_le : (s.bits.toNat + fromWidth s.dir) / toWidth s.dir ≤ 2 :=
  Nat.le_of_lt_succ (Nat.div_lt_of_lt_mul ((Nat.mul_comm _ _).trans_gt (pushCount_lt h)))

/-- The outputs of `RPUSH` are the whole values of the string. -/
theorem pushOutputs_eq {v : Byte} (hv : v.toNat < 2 ^ fromWidth s.dir) :
    pushOutputs v s =
      ((wholeValues (toWidth s.dir) (s.acc.toNat * 2 ^ fromWidth s.dir + v.toNat) (s.bits.toNat + fromWidth s.dir)).map
        (BitVec.ofNat 8), (s.bits.toNat + fromWidth s.dir) % toWidth s.dir) := by
  rw [pushOutputs, emitWhole_eq, pushed_toNat h hv, emitNats_eq (toWidth_pos s.dir) _ _ _ (pushCount_lt h)]

theorem exec_rpush_of_lt {v : Byte} (hv : v.toNat < 2 ^ fromWidth s.dir) {a b : Nat}
    (ha : a = s.acc.toNat * 2 ^ fromWidth s.dir + v.toNat) (hb : b = s.bits.toNat + fromWidth s.dir) :
    exec (.rpush v) s = .next (respond (responseOfData ((wholeValues (toWidth s.dir) a b).map (BitVec.ofNat 8)))
      { s with acc := BitVec.ofNat 7 (a % 2 ^ (b % toWidth s.dir)), bits := BitVec.ofNat 3 (b % toWidth s.dir) }) := by
  subst ha hb
  rw [exec, execRpush, whenRegrouperOk_of_ok h, if_neg ((tooWide_iff s.dir v).not.mpr (Nat.not_le.mpr hv)),
    pushOutputs_eq h hv, withLeftover_eq, pushed_toNat h hv]
  rfl

theorem exec_rpush_of_le {v : Byte} (hv : 2 ^ fromWidth s.dir ≤ v.toNat) :
    exec (.rpush v) s = .next (respond (.error .invalidArgument) (withFlag .invalidArgument s)) := by
  rw [exec, execRpush, whenRegrouperOk_of_ok h, if_pos ((tooWide_iff s.dir v).mpr hv)]
  rfl

/-- The leftover bits shifted to the top of an output value stay inside it. -/
theorem State.Inv.pad_lt : s.acc.toNat * 2 ^ (toWidth s.dir - s.bits.toNat) < 2 ^ toWidth s.dir := by
  obtain ⟨hbits, hacc⟩ := h.registers_fit
  calc s.acc.toNat * 2 ^ (toWidth s.dir - s.bits.toNat) < 2 ^ s.bits.toNat * 2 ^ (toWidth s.dir - s.bits.toNat) :=
        Nat.mul_lt_mul_of_pos_right hacc (Nat.two_pow_pos _)
    _ = 2 ^ toWidth s.dir := by rw [← pow_add, Nat.add_sub_cancel' hbits.le]

theorem padValue_eq : padValue s = BitVec.ofNat 8 (s.acc.toNat * 2 ^ (toWidth s.dir - s.bits.toNat)) := by
  have hshift (k : Nat) : s.acc.setWidth 8 <<< k = BitVec.ofNat 8 (s.acc.toNat * 2 ^ k) := by
    apply BitVec.eq_of_toNat_eq
    rw [BitVec.toNat_shiftLeft, BitVec.toNat_setWidth_of_le (by decide), BitVec.toNat_ofNat, Nat.shiftLeft_eq]
  rw [padValue, hshift, outMask_eq, ← BitVec.ofNat_and, Nat.and_two_pow_sub_one_eq_mod, Nat.mod_eq_of_lt h.pad_lt]

theorem padValue_ne_zero_iff : padValue s ≠ 0 ↔ s.acc.toNat ≠ 0 := by
  rw [padValue_eq h, ne_eq, ← BitVec.toNat_inj, BitVec.toNat_ofNat, Nat.mod_eq_of_lt (lt_byte_of_lt_toWidth h.pad_lt)]
  simp

theorem exec_rflush_of_ok {d : List Nat}
    (hd : paddingRule (fromWidth s.dir) (toWidth s.dir) s.strict s.acc.toNat s.bits.toNat = .ok d) :
    exec .rflush s = .next (respond (responseOfData (d.map (BitVec.ofNat 8))) (emptied s)) := by
  rw [exec, execRflush, whenRegrouperOk_of_ok h]
  rw [paddingRule] at hd
  simp only [padValue_ne_zero_iff h]
  rw [padValue_eq h]
  split_ifs at hd ⊢ <;> cases hd <;> rfl

theorem exec_rflush_of_error {k : FaultKind}
    (hk : paddingRule (fromWidth s.dir) (toWidth s.dir) s.strict s.acc.toNat s.bits.toNat = .error k) :
    exec .rflush s = .next (respond (.error k) (withFlag k s)) := by
  rw [exec, execRflush, whenRegrouperOk_of_ok h]
  rw [paddingRule] at hk
  simp only [padValue_ne_zero_iff h]
  split_ifs at hk ⊢
  cases hk
  rfl

end Inv

/-! ### Response words as numbers (R56) -/

theorem rspWord_toNat (err : BitVec 4) (n : BitVec 2) (d1 d0 : Byte) :
    (rspWord err n d1 d0).toNat = err.toNat * 2 ^ 28 + n.toNat * 2 ^ 26 + d1.toNat * 2 ^ 8 + d0.toNat := by
  have happend {v w : Nat} (x : BitVec v) (y : BitVec w) : (x ++ y).toNat = x.toNat * 2 ^ w + y.toNat := by
    rw [BitVec.toNat_append, shiftLeft_or_of_lt y.isLt]
  rw [rspWord]
  erw [happend, happend, happend, happend]
  rw [BitVec.toNat_ofNat]
  omega

theorem responseWord_ok1_ofNat {d : Nat} (hd : d < 2 ^ 8) :
    responseWord (.ok1 (BitVec.ofNat 8 d)) = BitVec.ofNat 32 (2 ^ 26 + d) := by
  apply BitVec.eq_of_toNat_eq
  rw [responseWord, rspWord_toNat, BitVec.toNat_ofNat, BitVec.toNat_ofNat, Nat.mod_eq_of_lt hd]
  simp
  omega

theorem responseWord_ok2_ofNat {d₀ d₁ : Nat} (h₀ : d₀ < 2 ^ 8) (h₁ : d₁ < 2 ^ 8) :
    responseWord (.ok2 (BitVec.ofNat 8 d₀) (BitVec.ofNat 8 d₁)) = BitVec.ofNat 32 (2 * 2 ^ 26 + d₀ + 2 ^ 8 * d₁) := by
  apply BitVec.eq_of_toNat_eq
  rw [responseWord, rspWord_toNat, BitVec.toNat_ofNat, BitVec.toNat_ofNat, BitVec.toNat_ofNat, Nat.mod_eq_of_lt h₀,
    Nat.mod_eq_of_lt h₁]
  simp
  omega

/-- The word that returns the whole values of a string, first-emitted first. -/
theorem responseWord_wholeValues {w : Nat} (hw : w ≤ 8) (a : Nat) {b : Nat} (hb : b / w ≤ 2) :
    responseWord (responseOfData ((wholeValues w a b).map (BitVec.ofNat 8))) =
      BitVec.ofNat 32 (b / w * 2 ^ 26 + (if 1 ≤ b / w then a / 2 ^ (b - w) % 2 ^ w else 0) +
        (if 2 ≤ b / w then 2 ^ 8 * (a / 2 ^ (b - 2 * w) % 2 ^ w) else 0)) := by
  have hbyte (x : Nat) : x % 2 ^ w < 2 ^ 8 :=
    (Nat.mod_lt x (Nat.two_pow_pos w)).trans_le (Nat.pow_le_pow_right (by decide) hw)
  have hdiv := Nat.div_add_mod b w
  rw [wholeValues]
  obtain hq | hq | hq : b / w = 0 ∨ b / w = 1 ∨ b / w = 2 := by generalize b / w = q at hb; omega
  · simp [hq, digits, responseOfData, responseWord, rspWord]
  · have hrest : b - w = b % w := by rw [hq] at hdiv; omega
    simp [hq, hrest, digits, responseOfData, responseWord_ok1_ofNat (hbyte _)]
  · have hfirst : b - w = b % w + w := by rw [hq] at hdiv; omega
    have hrest : b - 2 * w = b % w := by rw [hq] at hdiv; omega
    simp [hq, hfirst, hrest, digits, responseOfData, responseWord_ok2_ofNat (hbyte _) (hbyte _), Nat.div_div_eq_div_mul, pow_add]

/-! ### Streaming (R90) -/

/-- The commands `is` complete from `s`, and `d` is the data their responses return, or the first fault. -/
def Returns (is : List Instr) (s : State) (d : Except FaultKind (List Nat)) : Prop :=
  ∃ t rs, runCommands is s = .next t ∧ t.responses = s.responses ++ rs.map responseWord ∧
    (dataOf rs).map (List.map BitVec.toNat) = d

theorem returns_nil (s : State) : Returns [] s (.ok []) := ⟨s, [], rfl, (List.append_nil _).symm, rfl⟩

theorem dataOf_cons_of_ok {c : Response} {d : List Byte} (h : responseData c = .ok d) (rs : List Response) :
    dataOf (c :: rs) = (dataOf rs).map (d ++ ·) := by
  simp only [dataOf, h]
  cases dataOf rs <;> rfl

/-- A command without a fault returns its data before that of the rest. -/
theorem Returns.cons {i : Instr} {is : List Instr} {s u : State} {c : Response} {data : List Byte}
    {d : Except FaultKind (List Nat)} (hexec : exec i s = .next (respond c u)) (hu : u.responses = s.responses)
    (hc : responseData c = .ok data) (h : Returns is (respond c u) d) :
    Returns (i :: is) s (d.map (data.map BitVec.toNat ++ ·)) := by
  obtain ⟨t, rs, hrun, hresponses, rfl⟩ := h
  refine ⟨t, c :: rs, (runCommands_cons_of_next hexec is).trans hrun, ?_, ?_⟩
  · rw [hresponses, respond_responses, hu, List.append_assoc]
    rfl
  · rw [dataOf_cons_of_ok hc]
    cases dataOf rs with
    | error k => rfl
    | ok ds => exact congrArg Except.ok List.map_append

/-- A command that emits nothing leaves what a run returns to the rest of it. -/
theorem Returns.cons_of_ok0 {i : Instr} {is : List Instr} {s u : State} {d : Except FaultKind (List Nat)}
    (hexec : exec i s = .next (respond .ok0 u)) (hu : u.responses = s.responses) (h : Returns is (respond .ok0 u) d) :
    Returns (i :: is) s d := by
  have hreturns := Returns.cons hexec hu rfl h
  cases d <;> exact hreturns

/-- Where the invariant holds any commands complete, each with a response. -/
theorem runCommands_completes (is : List Instr) {s : State} (h : s.Inv) :
    ∃ (t : State) (rs : List Response), runCommands is s = .next t ∧ t.responses = s.responses ++ rs.map responseWord := by
  induction is generalizing s with
  | nil => exact ⟨s, [], rfl, (List.append_nil _).symm⟩
  | cons i is ih =>
    obtain ⟨t, ht⟩ := exec_completes i h
    obtain ⟨c, u, hu, rfl⟩ := exec_writes i s t ht
    obtain ⟨t', rs, hrun, hresponses⟩ := ih ((exec_answers i s _ ht).inv h)
    refine ⟨t', c :: rs, (runCommands_cons_of_next ht is).trans hrun, ?_⟩
    rw [hresponses, respond_responses, hu.responses, List.append_assoc]
    rfl

/-- A fault decides what the run returns. -/
theorem returns_cons_of_fault {i : Instr} {s : State} {k : FaultKind}
    (hexec : exec i s = .next (respond (.error k) (withFlag k s))) (is : List Instr) : Returns (i :: is) s (.error k) := by
  obtain ⟨t, rs, hrun, hresponses⟩ := runCommands_completes is ((exec_answers i s _ hexec).inv (inv_of_exec_next hexec))
  refine ⟨t, .error k :: rs, (runCommands_cons_of_next hexec is).trans hrun, ?_, rfl⟩
  rw [hresponses, respond_responses, List.append_assoc]
  rfl

/-- At most two values are returned as they are. -/
theorem responseData_responseOfData {d : List Byte} (h : d.length ≤ 2) : responseData (responseOfData d) = .ok d := by
  match d with
  | [] => rfl
  | [_] => rfl
  | [_, _] => rfl
  | _ :: _ :: _ :: _ => simp at h

theorem map_toNat_map_ofNat {d : List Nat} (h : ∀ x ∈ d, x < 2 ^ 8) : (d.map (BitVec.ofNat 8)).map BitVec.toNat = d := by
  rw [List.map_map]
  exact (List.map_congr_left fun x hx => (BitVec.toNat_ofNat x 8).trans (Nat.mod_eq_of_lt (h x hx))).trans (List.map_id d)

section Inv
variable {s : State} (h : s.Inv)
include h

/-- `RFLUSH` returns what the padding rule says. -/
theorem returns_rflush :
    Returns [.rflush] s (paddingRule (fromWidth s.dir) (toWidth s.dir) s.strict s.acc.toNat s.bits.toNat) := by
  cases hd : paddingRule (fromWidth s.dir) (toWidth s.dir) s.strict s.acc.toNat s.bits.toNat with
  | error k => exact returns_cons_of_fault (exec_rflush_of_error h hd) []
  | ok d =>
    have hpad : d = [] ∨ d = [s.acc.toNat * 2 ^ (toWidth s.dir - s.bits.toNat)] := paddingRule_ok hd
    have hlength : d.length ≤ 2 := by obtain rfl | rfl := hpad <;> simp
    have hbytes : ∀ x ∈ d, x < 2 ^ 8 := by
      obtain rfl | rfl := hpad
      · exact List.forall_mem_nil _
      · exact List.forall_mem_singleton.mpr (lt_byte_of_lt_toWidth h.pad_lt)
    have hreturns := Returns.cons (exec_rflush_of_ok h hd) rfl
      (responseData_responseOfData ((List.length_map _).trans_le hlength)) (returns_nil _)
    rwa [map_toNat_map_ofNat hbytes, Except.map, List.append_nil] at hreturns

/-- `RPUSH` of a value that fits returns the whole values of the string, and leaves its other bits for the rest of the run. -/
theorem returns_rpush_cons {v : Byte} (hv : v.toNat < 2 ^ fromWidth s.dir) {a b : Nat}
    (ha : a = s.acc.toNat * 2 ^ fromWidth s.dir + v.toNat) (hb : b = s.bits.toNat + fromWidth s.dir)
    {is : List Instr} {d : Except FaultKind (List Nat)}
    (hrest : ∀ t : State, t.Inv → t.dir = s.dir → t.strict = s.strict → t.acc.toNat = a % 2 ^ (b % toWidth s.dir) →
      t.bits.toNat = b % toWidth s.dir → Returns is t d) :
    Returns (.rpush v :: is) s (d.map (wholeValues (toWidth s.dir) a b ++ ·)) := by
  have hexec := exec_rpush_of_lt h hv ha hb
  have hcount : b / toWidth s.dir ≤ 2 := hb ▸ pushCount_div_le h
  have hbits : b % toWidth s.dir < 8 := (Nat.mod_lt b (toWidth_pos s.dir)).trans_le (toWidth_le s.dir)
  have hacc : a % 2 ^ (b % toWidth s.dir) < 2 ^ 7 :=
    (Nat.mod_lt a (Nat.two_pow_pos _)).trans_le (Nat.pow_le_pow_right (by decide) (Nat.le_of_lt_succ hbits))
  have hbytes : ∀ x ∈ wholeValues (toWidth s.dir) a b, x < 2 ^ 8 := fun x hx => lt_byte_of_lt_toWidth (lt_of_mem_wholeValues hx)
  have hreturns := Returns.cons hexec rfl (responseData_responseOfData (by simpa using hcount))
    (hrest _ ((exec_answers _ s _ hexec).inv h) rfl rfl ((BitVec.toNat_ofNat _ 7).trans (Nat.mod_eq_of_lt hacc))
      ((BitVec.toNat_ofNat _ 3).trans (Nat.mod_eq_of_lt hbits)))
  rwa [map_toNat_map_ofNat hbytes] at hreturns

end Inv

/-- Pushing values that fit and flushing regroups the leftover bits with the values after them. -/
theorem returns_conversion_of_lt {values : List Byte} {s : State} (h : s.Inv)
    (hv : ∀ v ∈ values.map BitVec.toNat, v < 2 ^ fromWidth s.dir) :
    Returns (values.map .rpush ++ [.rflush]) s
      (regrouped (fromWidth s.dir) (toWidth s.dir) s.strict
        (bitString (fromWidth s.dir) s.acc.toNat (values.map BitVec.toNat))
        (fromWidth s.dir * (values.map BitVec.toNat).length + s.bits.toNat)) := by
  induction values generalizing s with
  | nil =>
    obtain ⟨hbits, hacc⟩ := h.registers_fit
    rw [List.map_nil, List.map_nil, List.length_nil, Nat.mul_zero, Nat.zero_add, regrouped_of_lt hbits, bitString_nil,
      Nat.mod_eq_of_lt hacc]
    exact returns_rflush h
  | cons v values ih =>
    obtain ⟨hhead, htail⟩ := List.forall_mem_cons.mp hv
    rw [List.map_cons, List.map_cons, bitString_cons, length_cons_split (toWidth s.dir), regrouped_split (toWidth_pos s.dir),
      bitString_div htail, bitString_mod htail]
    refine returns_rpush_cons h hhead rfl rfl fun t ht hdir hstrict hacc hbits => ?_
    have hreturns := ih ht
    rw [hdir, hstrict, hacc, hbits] at hreturns
    exact hreturns htail

/-- A value that does not fit decides what the run returns. -/
theorem returns_conversion_of_not_lt {values : List Byte} {s : State} (h : s.Inv)
    (hv : ¬ ∀ v ∈ values.map BitVec.toNat, v < 2 ^ fromWidth s.dir) :
    Returns (values.map .rpush ++ [.rflush]) s (.error .invalidArgument) := by
  induction values generalizing s with
  | nil => exact absurd (List.forall_mem_nil _) hv
  | cons v values ih =>
    obtain hle | hlt := le_or_gt (2 ^ fromWidth s.dir) v.toNat
    · exact returns_cons_of_fault (exec_rpush_of_le h hle) _
    · have htail : ¬ ∀ v ∈ values.map BitVec.toNat, v < 2 ^ fromWidth s.dir := fun htail =>
        hv (List.forall_mem_cons.mpr ⟨hlt, htail⟩)
      exact returns_rpush_cons h hlt rfl rfl fun t ht hdir _ _ _ => ih ht (hdir ▸ htail)

/-! ### The statements -/

/-- Settles O37: `RINIT` leaves an empty string, and the rest of the commands regroup the values as `convertBits` does. -/
theorem streamingEqualsConvertBits : Obligations.StreamingEqualsConvertBits := by
  intro m values s hs
  show Returns (.rinit m :: (values.map .rpush ++ [.rflush])) s
    (convertBits (values.map BitVec.toNat) (if m.toNat % 2 = 1 then 5 else 8) (if m.toNat % 2 = 1 then 8 else 5) _)
  have hstart := exec_rinit hs m
  have hinv := (exec_answers _ s _ hstart).inv hs
  have hfrom : (if m.toNat % 2 = 1 then 5 else 8) = fromWidth (operandDir m) := by simp [operandDir_eq, fromWidth]
  have hto : (if m.toNat % 2 = 1 then 8 else 5) = toWidth (operandDir m) := by simp [operandDir_eq, toWidth]
  rw [hfrom, hto, ← operandStrict_eq]
  by_cases hv : ∀ v ∈ values.map BitVec.toNat, v < 2 ^ fromWidth (operandDir m)
  · rw [convertBits_of_lt (toWidth_pos _) hv]
    exact Returns.cons_of_ok0 hstart rfl (returns_conversion_of_lt hinv hv)
  · rw [convertBits_of_not_lt hv]
    exact Returns.cons_of_ok0 hstart rfl (returns_conversion_of_not_lt hinv hv)

/-- Settles O35: the response holds the whole values of the string, of which there are at most two. -/
theorem rpushCutsTheBitStringFromTheFront : Obligations.RpushCutsTheBitStringFromTheFront := by
  refine ⟨fun v => ?_, fun v s inW outW a b hs hin hout ha hb => ?_⟩
  · rw [← encode_rpush]
    exact decode_encode _
  · obtain rfl : inW = fromWidth s.dir := hin
    obtain rfl : outW = toWidth s.dir := hout
    have hcount : b / toWidth s.dir ≤ 2 := hb ▸ pushCount_div_le hs
    refine ⟨fun hv => ⟨hcount, ?_⟩, fun hv => exec_rpush_of_le hs hv⟩
    rw [exec_rpush_of_lt hs hv ha hb, ← responseWord_wholeValues (toWidth_le s.dir) a hcount]
    rfl

/-- Settles O36: by the padding rule, case by case; the leftover bits are not 0 exactly when `ACC` is not. -/
theorem rflushPadsOrChecks : Obligations.RflushPadsOrChecks := by
  refine ⟨decode_encode .rflush, fun s (hs : s.Inv) => ?_⟩
  have hacc : s.acc ≠ 0 ↔ s.acc.toNat ≠ 0 := by rw [ne_eq, ← BitVec.toNat_inj]; rfl
  have hbits : s.bits = 0 ↔ ¬ 0 < s.bits.toNat := by rw [← BitVec.toNat_inj, Nat.pos_iff_ne_zero, not_not]; rfl
  refine ⟨fun hstrict => ?_, fun hstrict hbad => ?_, fun hstrict hgood => ?_⟩
  · have hrule : paddingRule (fromWidth s.dir) (toWidth s.dir) s.strict s.acc.toNat s.bits.toNat = .ok _ :=
      if_neg (ne_true_of_eq_false hstrict)
    have hword : BitVec.ofNat 32 (0x04000000 + s.acc.toNat * 2 ^ ((if s.dir then 8 else 5) - s.bits.toNat)) = responseWord _ :=
      (responseWord_ok1_ofNat (lt_byte_of_lt_toWidth hs.pad_lt)).symm
    rw [exec_rflush_of_ok hs hrule]
    by_cases hleft : 0 < s.bits.toNat
    · rw [if_pos hleft, if_neg (hbits.not.mpr (not_not.mpr hleft)), hword]
      rfl
    · rw [if_neg hleft, if_pos (hbits.mpr hleft)]
      rfl
  · rw [hacc] at hbad
    exact exec_rflush_of_error hs ((if_pos hstrict).trans (if_pos hbad))
  · rw [hacc] at hgood
    exact exec_rflush_of_ok hs ((if_pos hstrict).trans (if_neg hgood))

/-- Settles O34: the reserved bits of form M are the `arg` values above 3; `RINIT` cannot fault. -/
theorem rinitStartsAConversion : Obligations.RinitStartsAConversion := by
  refine ⟨fun m => ?_, fun a ha i => ?_, fun m s hs => ?_⟩
  · rw [← encode_rinit]
    exact decode_encode _
  · have hreserved : Form.M.legalArg a = false := decide_eq_false (Nat.not_le.mpr ha)
    rw [decode_of_not_legalArg rfl hreserved]
    exact nofun
  · rw [exec_rinit hs, operandDir_eq, operandStrict_eq]
    rfl

/-- Settles O38: leniently the fill makes up whole values; strictly the string is cut into them and the leftover is shorter than 5
bits. -/
theorem regroupedLengths : Obligations.RegroupedLengths := by
  refine ⟨fun values => ?_, fun symbols => ?_, fun symbols out hout => ?_⟩
  · exact convertBits_lenient_length (p := 5 * ((8 * values.length + 4) / 5) - 8 * values.length) toNat_lt_of_mem_map
      (by rw [List.length_map]; omega) (by omega)
  · exact convertBits_lenient_length (p := 8 * ((5 * symbols.length + 7) / 8) - 5 * symbols.length) toNat_lt_of_mem_map
      (by rw [List.length_map]; omega) (by omega)
  · rw [convertBits_of_lt (by decide) toNat_lt_of_mem_map, regrouped_strict_eq_ok, List.length_map] at hout
    obtain ⟨⟨hleft, -⟩, rfl⟩ := hout
    exact ⟨wholeValues_length _ _ _, hleft⟩

/-- Settles O39: the fill is below 5 bits, so it is no whole byte and, being below an input value, passes the strict check. -/
theorem regroupingRoundTrips : Obligations.RegroupingRoundTrips := fun values =>
  convertBits_strict_of_lenient (n := (8 * values.length + 4) / 5) (p := 5 * ((8 * values.length + 4) / 5) - 8 * values.length)
    toNat_lt_of_mem_map (by rw [List.length_map]; omega) (by omega) (by omega)

end Sys2Proof.Machine
end

section
/-! ## The checksum: the update step as a linear map, feeding symbols, the four commands

The update step is linear (`polyStep_xor`), and in a register whose top five bits are 0 it only shifts the symbol in
(`polyStep_toNat_of_lt`). Feeding eight symbols into 0 therefore leaves the value whose symbols they are, and feeding them into any
register adds that value to what eight zeros leave: generation and validation agree for this reason alone (R110). -/

namespace Sys2Proof

/-! ### The words of the four commands (R62) -/

theorem encode_csym (v : Byte) : encode (.csym v) = 0x3100 ||| v.setWidth 16 := cmdWord_eq_or 0x31 v

theorem encode_cget (k : BitVec 3) : encode (.cget k) = 0x3300 ||| k.setWidth 16 := by revert k; decide

end Sys2Proof

namespace Sys2Proof.Machine

/-! ### The update step (R102) -/

@[simp] theorem applyGenerators_nil (top : Symbol) (i : Nat) (c : ChkWord) : applyGenerators top i [] c = c := rfl

theorem applyGenerators_cons (top : Symbol) (i : Nat) (g : ChkWord) (gs : List ChkWord) (c : ChkWord) :
    applyGenerators top i (g :: gs) c = applyGenerators top (i + 1) gs (c ^^^ if top.getLsbD i then g else 0) := by
  rw [applyGenerators]
  split <;> simp

/-- The conditional XORs are linear in the pair of the deciding bits and the value. -/
theorem applyGenerators_xor (t u : Symbol) (i : Nat) (gs : List ChkWord) (c d : ChkWord) :
    applyGenerators (t ^^^ u) i gs (c ^^^ d) = applyGenerators t i gs c ^^^ applyGenerators u i gs d := by
  induction gs generalizing i c d with
  | nil => rfl
  | cons g gs ih =>
    have hbit : (if (t ^^^ u).getLsbD i then g else 0) = (if t.getLsbD i then g else 0) ^^^ if u.getLsbD i then g else 0 := by
      rw [BitVec.getLsbD_xor]
      cases t.getLsbD i <;> cases u.getLsbD i <;> simp
    rw [applyGenerators_cons, applyGenerators_cons, applyGenerators_cons, ← ih, hbit]
    congr 1
    ac_rfl

/-- With no deciding bit set no generator goes in. -/
theorem applyGenerators_zero (i : Nat) (gs : List ChkWord) (c : ChkWord) : applyGenerators 0 i gs c = c := by
  induction gs generalizing i c with
  | nil => rfl
  | cons g gs ih =>
    rw [applyGenerators_cons, ih]
    simp

/-- The update step shifts the symbol in below the low 35 bits, and the five bits that fall out decide on the generators. -/
theorem polyStep_eq (c : ChkWord) (x : Symbol) :
    polyStep c x = applyGenerators (c.extractLsb' 35 5) 0 generators (c.extractLsb' 0 35 ++ x) := by
  have hsymbol : x.setWidth 40 = (0#35 ++ x : BitVec (35 + 5)) := BitVec.setWidth_eq_append (by decide)
  rw [polyStep, hsymbol]
  erw [BitVec.xor_append]
  rw [BitVec.xor_zero, BitVec.zero_xor]

theorem polyStep_xor (c d : ChkWord) (x y : Symbol) : polyStep (c ^^^ d) (x ^^^ y) = polyStep c x ^^^ polyStep d y := by
  rw [polyStep_eq, polyStep_eq, polyStep_eq, ← applyGenerators_xor, BitVec.extractLsb'_xor, BitVec.extractLsb'_xor]
  erw [BitVec.xor_append]

/-- Below `2^35` nothing falls out of the register: the step appends the symbol as a base-32 digit. -/
theorem polyStep_toNat_of_lt {c : ChkWord} (hc : c.toNat < 2 ^ 35) (x : Symbol) :
    (polyStep c x).toNat = c.toNat * 32 + x.toNat := by
  have htop : c.extractLsb' 35 5 = 0 := by
    apply BitVec.eq_of_toNat_eq
    rw [BitVec.extractLsb'_toNat, Nat.shiftRight_eq_div_pow, Nat.div_eq_of_lt hc]
    rfl
  rw [polyStep_eq, htop, applyGenerators_zero]
  erw [BitVec.toNat_append]
  rw [shiftLeft_or_of_lt x.isLt, BitVec.extractLsb'_toNat, Nat.shiftRight_zero, Nat.mod_eq_of_lt hc]
  rfl

/-- The low 35 bits before five zeros are the masked register shifted. -/
theorem low_append_zeros_eq_shiftLeft (c : ChkWord) : (c.extractLsb' 0 35 ++ 0#5 : ChkWord) = (c &&& 0x07ffffffff) <<< 5 := by
  have hmask : (0x07ffffffff : ChkWord).extractLsb' 0 35 = BitVec.allOnes 35 := by decide
  rw [BitVec.shiftLeft_eq_concat_of_lt (by decide), BitVec.extractLsb'_and, hmask, BitVec.and_allOnes]
  rfl

/-! ### Feeding a sequence (R100, R110) -/

@[simp] theorem feedSymbols_nil (c : ChkWord) : feedSymbols c [] = c := rfl

theorem feedSymbols_cons (c : ChkWord) (x : Symbol) (xs : List Symbol) :
    feedSymbols c (x :: xs) = feedSymbols (polyStep c x) xs := rfl

theorem feedSymbols_append (c : ChkWord) (xs ys : List Symbol) : feedSymbols c (xs ++ ys) = feedSymbols (feedSymbols c xs) ys :=
  List.foldl_append

/-- What a sequence leaves is what as many zeros leave, XORed with what the sequence leaves of 0. -/
theorem feedSymbols_xor_zeros (c d : ChkWord) (xs : List Symbol) :
    feedSymbols (c ^^^ d) xs = feedSymbols c (List.replicate xs.length 0) ^^^ feedSymbols d xs := by
  induction xs generalizing c d with
  | nil => rfl
  | cons x xs ih =>
    have hstep : polyStep (c ^^^ d) x = polyStep c 0 ^^^ polyStep d x := by simp [← polyStep_xor]
    rw [feedSymbols_cons, hstep, ih]
    rfl

/-- While the register holds at most eight base-32 digits, feeding appends digits. -/
theorem feedSymbols_toNat {c : ChkWord} {k : Nat} {xs : List Symbol} (hc : c.toNat < 32 ^ k) (hlen : k + xs.length ≤ 8) :
    (feedSymbols c xs).toNat = xs.foldl (fun n x => n * 32 + x.toNat) c.toNat := by
  induction xs generalizing c k with
  | nil => rfl
  | cons x xs ih =>
    rw [List.length_cons] at hlen
    have hc' : c.toNat < 32 ^ 7 := hc.trans_le (Nat.pow_le_pow_right (by decide) (by omega))
    have hstep : (polyStep c x).toNat = c.toNat * 32 + x.toNat := polyStep_toNat_of_lt hc' x
    have hnext : (polyStep c x).toNat < 32 ^ (k + 1) := by
      have hx : x.toNat < 32 := x.isLt
      rw [hstep, pow_succ]
      omega
    rw [feedSymbols_cons, List.foldl_cons, ← hstep]
    exact ih hnext (by omega)

/-- Eight symbols fed into 0 leave the value whose symbols they are (R44). -/
theorem feedSymbols_zero_checksumSymbols (p : ChkWord) : feedSymbols 0 (checksumSymbols p) = p :=
  BitVec.eq_of_toNat_eq ((feedSymbols_toNat (c := 0) (k := 0) Nat.one_pos le_rfl).trans (foldl_checksumSymbols p))

/-- Feeding the eight symbols of a value adds it to what eight zeros leave. -/
theorem feedSymbols_checksumSymbols (c p : ChkWord) :
    feedSymbols c (checksumSymbols p) = feedSymbols c (List.replicate 8 0) ^^^ p := by
  calc feedSymbols c (checksumSymbols p) = feedSymbols (c ^^^ 0) (checksumSymbols p) := by simp
    _ = feedSymbols c (List.replicate 8 0) ^^^ feedSymbols 0 (checksumSymbols p) := feedSymbols_xor_zeros c 0 _
    _ = feedSymbols c (List.replicate 8 0) ^^^ p := by rw [feedSymbols_zero_checksumSymbols]

/-- The XOR with 1 undone: `CHK` after feeding the sequence (R100). -/
theorem polymod_xor_one (xs : List Symbol) : polymod xs ^^^ 1 = feedSymbols 1 xs := by
  simp [polymod, chkFinalXor, chkInit]

/-! ### What the commands leave (R103 to R106) -/

theorem responseWord_ok0 : responseWord .ok0 = 0 := rfl

theorem prefixSymbol_eq (c : Byte) : prefixSymbol c = (c &&& 0x1F).setWidth 5 := by revert c; decide

theorem exec_csym_of_some {s : State} (h : s.Inv) {v : Byte} {x : Symbol} (hv : operandSymbol v = some x) :
    exec (.csym v) s = .next (respond .ok0 { s with chk := polyStep s.chk x }) := by
  rw [exec, execCsym, whenRegrouperOk_of_ok h, hv]
  rfl

theorem exec_csym_of_none {s : State} (h : s.Inv) {v : Byte} (hv : operandSymbol v = none) :
    exec (.csym v) s = .next (respond (.error .invalidArgument) (withFlag .invalidArgument s)) := by
  rw [exec, execCsym, whenRegrouperOk_of_ok h, hv]
  rfl

theorem exec_cpfx {s : State} (h : s.Inv) (c : Byte) :
    exec (.cpfx c) s = .next (respond .ok0 { s with chk := polyStep s.chk (prefixSymbol c) }) :=
  whenRegrouperOk_of_ok h _

/-- `CPFX` reads the low five bits of its operand only. -/
theorem exec_cpfx_congr {c d : Byte} (h : prefixSymbol c = prefixSymbol d) (s : State) : exec (.cpfx c) s = exec (.cpfx d) s := by
  rw [exec, exec, execCpfx, execCpfx, h]

/-- The command `i` feeds the symbol `x`. -/
def Feeds (i : Instr) (x : Symbol) : Prop :=
  ∀ s : State, s.Inv → exec i s = .next (respond .ok0 { s with chk := polyStep s.chk x })

theorem feeds_csym (x : Symbol) : Feeds (.csym (x.setWidth 8)) x := fun _ h => exec_csym_of_some h (operandSymbol_setWidth x)

theorem feeds_cpfx (c : Byte) : Feeds (.cpfx c) ((c &&& 0x1F).setWidth 5) := fun _ h => prefixSymbol_eq c ▸ exec_cpfx h c

/-- Commands that feed one symbol each run the whole sequence through `CHK`, with an empty response per symbol. -/
theorem runCommands_feeds {is : List Instr} {xs : List Symbol} (hf : List.Forall₂ Feeds is xs) {s : State} (h : s.Inv) :
    runCommands is s = .next { s with
      chk := feedSymbols s.chk xs, responses := s.responses ++ List.replicate xs.length 0x00000000 } := by
  induction hf generalizing s with
  | nil => simp [runCommands]
  | @cons i x is xs hi _ ih =>
    rw [runCommands_cons_of_next (hi s h), ih (s := respond .ok0 { s with chk := polyStep s.chk x }) h]
    simp [respond, responseWord_ok0, feedSymbols_cons, List.replicate_succ]

/-! ### The symbols of `CHK ^ 1` (R44, R106) -/

/-- The XOR with 1 reaches the last symbol only. -/
theorem checksumSymbol_xor_one {k : BitVec 3} (hk : k ≠ 7) (c : ChkWord) : checksumSymbol (c ^^^ 1) k = checksumSymbol c k := by
  have hone : ∀ k : BitVec 3, k ≠ 7 → checksumSymbol 1 k = 0 := by decide
  have hxor : checksumSymbol (c ^^^ 1) k = checksumSymbol c k ^^^ checksumSymbol 1 k := BitVec.extractLsb'_xor
  rw [hxor, hone k hk]
  exact BitVec.xor_zero

/-- A symbol as the rule's shift and mask. -/
theorem checksumSymbol_toNat_two_pow (p : ChkWord) (k : BitVec 3) :
    (checksumSymbol p k).toNat = p.toNat / 2 ^ (5 * (7 - k.toNat)) % 32 := by
  rw [checksumSymbol_toNat, Nat.pow_mul]

/-! ### The statements -/

/-- Settles O43: the response is the word of one symbol of `CHK ^ 1`, and the XOR reaches symbol 7 only. -/
theorem cgetReadsOneChecksumSymbol : Obligations.CgetReadsOneChecksumSymbol := by
  refine ⟨fun k => ?_, fun a ha i => ?_, fun k s hs => ?_, fun k c hk => ?_⟩
  · rw [← encode_cget]
    exact decode_encode _
  · have hreserved : Form.K.legalArg a = false := decide_eq_false (Nat.not_le.mpr ha)
    rw [decode_of_not_legalArg rfl hreserved]
    exact nofun
  · rw [exec_cget hs, ← checksumSymbol_toNat_two_pow]
    have hword : ∀ x : Symbol, responseWord (.ok1 (x.setWidth 8)) = BitVec.ofNat 32 (0x04000000 + x.toNat) := by decide
    rw [← hword]
    rfl
  · rw [← checksumSymbol_toNat_two_pow, ← checksumSymbol_toNat_two_pow, checksumSymbol_xor_one hk]

/-- Settles O47: the five conditional XORs unrolled (`applyGenerators_cons`) over the masked and shifted register. -/
theorem updateStepIsTheFormulaOfTheRule : Obligations.UpdateStepIsTheFormulaOfTheRule := by
  intro c x
  rw [polyStep, low_append_zeros_eq_shiftLeft]
  simp [generators, applyGenerators_cons]

/-- Settles O48: `polyStep_xor`. -/
theorem updateStepIsLinear : Obligations.UpdateStepIsLinear := polyStep_xor

/-- Settles O49: after `CINIT` each command feeds one symbol, and the XOR with 1 twice over is none. -/
theorem feedingCommandsComputePolymod : Obligations.FeedingCommandsComputePolymod := by
  intro pre symbols s hs
  have hfeeds : List.Forall₂ Feeds (pre.map .cpfx ++ symbols.map fun x => .csym (x.setWidth 8))
      (pre.map (fun c => (c &&& 0x1F).setWidth 5) ++ symbols) := by
    refine List.rel_append ?_ ?_
    · rw [List.forall₂_map_left_iff, List.forall₂_map_right_iff]
      exact List.forall₂_same.mpr fun c _ => feeds_cpfx c
    · rw [List.forall₂_map_left_iff]
      exact List.forall₂_same.mpr fun x _ => feeds_csym x
  have hstart := exec_cinit (s := s) hs
  rw [runCommands_cons_of_next hstart, runCommands_feeds hfeeds (s := respond .ok0 { s with chk := 1 }) hs, polymod_xor_one]
  simp [respond, responseWord_ok0, Nat.add_assoc, List.replicate_add 1]

/-- Settles O50: the symbols of `p` add `p` to what eight zeros leave, and that is `p ^ 1`. -/
theorem generationAndValidationAgree : Obligations.GenerationAndValidationAgree := by
  intro symbols
  have hpolymod (ys : List Symbol) : polymod (symbols ++ ys) = feedSymbols (feedSymbols 1 symbols) ys ^^^ 1 := by
    rw [polymod, feedSymbols_append]
    rfl
  rw [hpolymod, hpolymod, feedSymbols_checksumSymbols, BitVec.xor_assoc, BitVec.xor_assoc]
  simp

/-- Settles O40: `exec_cinit`. -/
theorem cinitStartsAChecksum : Obligations.CinitStartsAChecksum :=
  ⟨decode_encode .cinit, fun _ hs => ⟨exec_cinit hs, rfl⟩⟩

/-- Settles O41: by whether the operand carries a symbol. -/
theorem csymFeedsOneSymbol : Obligations.CsymFeedsOneSymbol := by
  refine ⟨fun v => ?_, fun v s hs hv => exec_csym_of_some hs (operandSymbol_of_le hv),
    fun v s hs hv => exec_csym_of_none hs (operandSymbol_of_gt hv), by decide⟩
  rw [← encode_csym]
  exact decode_encode _

/-- Settles O42: the command reads `prefixSymbol c` only, the low five bits of `c`. -/
theorem cpfxFeedsTheLowFiveBits : Obligations.CpfxFeedsTheLowFiveBits := by
  refine ⟨fun c => ?_, fun c s hs => feeds_cpfx c s hs, fun c d s h => exec_cpfx_congr ?_ s⟩
  · rw [← encode_cpfx]
    exact decode_encode _
  · rw [prefixSymbol_eq, prefixSymbol_eq, h]

/-- Settles O46: the constants as they stand. -/
theorem generatorTableChecks : Obligations.GeneratorTableChecks := ⟨rfl, by decide, by decide⟩

end Sys2Proof.Machine
end

section
/-! ## The system commands, and a run's independence of the state before `SRST` (R115 to R117)

A command reads the six registers and `ALPHA31` and nothing else: `exec_runsAlike` and the frame of the three units, joined with the
three system commands (`exec_alike_of_sameRegisters`), then along a program (`runCommands_alike_of_sameRegisters`). The response of
`RDST` is `STATUS` read as a number (`status_toNat`). -/

namespace Sys2Proof.Machine

/-! ### A command depends on the six registers and `ALPHA31` only (R20, R32) -/

/-- States with the same registers agree on the registers of every unit. -/
theorem SameRegisters.sameOn {s s' : State} (h : SameRegisters s s') (u : BitVec 4) : SameOn u s s' := by
  obtain ⟨hchk, hacc, hbits, hdir, hstrict, -⟩ := h
  exact ⟨fun _ => ⟨hacc.symm, hbits.symm, hdir.symm, hstrict.symm⟩, fun _ => hchk.symm⟩

/-- States that agree on the registers of every unit and on `ERR` have the same registers. -/
theorem SameRegisters.of_sameOn {s s' : State} (h : ∀ u, SameOn u s s') (herr : s.err = s'.err) : SameRegisters s s' := by
  obtain ⟨hacc, hbits, hdir, hstrict⟩ := (h 2).regrouper rfl
  exact ⟨((h 3).checksum rfl).symm, hacc.symm, hbits.symm, hdir.symm, hstrict.symm, herr⟩

theorem SameRegisters.inv {s s' : State} (h : SameRegisters s s') (hs : s.Inv) : s'.Inv := by
  obtain ⟨-, hacc, hbits, hdir, -, -⟩ := h
  exact (regrouperOk_congr hacc.symm hbits.symm hdir.symm).trans hs

theorem SameRegisters.status_eq {s s' : State} (h : SameRegisters s s') : status s = status s' := by
  obtain ⟨hchk, -, hbits, hdir, hstrict, herr⟩ := h
  simp only [status, zFlag, hchk, hbits, hdir, hstrict, herr]

/-- From `s` to `t` and from `s'` to `t'` the same responses were returned and the same registers left. -/
structure AlikeOutcome (s s' t t' : State) : Prop where
  registers : SameRegisters t t'
  responses : ∃ rs, t.responses = s.responses ++ rs ∧ t'.responses = s'.responses ++ rs

theorem alikeOutcome_respond (c : Response) {s s' u u' : State} (h : SameRegisters u u') (hu : u.responses = s.responses)
    (hu' : u'.responses = s'.responses) : AlikeOutcome s s' (respond c u) (respond c u') :=
  ⟨h, [responseWord c], by rw [respond_responses, hu], by rw [respond_responses, hu']⟩

theorem AlikeOutcome.trans {s s' t t' v v' : State} (h : AlikeOutcome s s' t t') (h' : AlikeOutcome t t' v v') :
    AlikeOutcome s s' v v' := by
  obtain ⟨rs, hrs, hrs'⟩ := h.responses
  obtain ⟨qs, hqs, hqs'⟩ := h'.responses
  exact ⟨h'.registers, rs ++ qs, by rw [hqs, hrs, List.append_assoc], by rw [hqs', hrs', List.append_assoc]⟩

section Alike
variable {s s' : State} (h : SameRegisters s s')
include h

/-- A unit's command does the same in its own unit, and in both states leaves the registers of the others as they are. -/
theorem exec_alike_of_unit {i : Instr} {t t' : State} (hi : unitOf i ≠ 0) (hc : s'.config = s.config) (ht : exec i s = .next t)
    (ht' : exec i s' = .next t') : AlikeOutcome s s' t t' := by
  obtain ⟨hown, ⟨r, hr, hr'⟩, ⟨e, he, he'⟩⟩ := exec_runsAlike hi hc (h.sameOn _) t t' ht ht'
  refine ⟨.of_sameOn (fun u => ?_) ?_, [r], hr, hr'⟩
  · by_cases hu : u = unitOf i
    · exact hu ▸ hown
    · exact (exec_sameOn_of_ne hi hu ht).symm.trans ((h.sameOn u).trans (exec_sameOn_of_ne hi hu ht'))
  · obtain ⟨-, -, -, -, -, herr⟩ := h
    rw [he, he', herr]

/-- In two states of one block with the same registers, a command returns the same response and leaves the same registers. -/
theorem exec_alike_of_sameRegisters (i : Instr) (hs : s.Inv) (hc : s'.config = s.config) :
    ∃ t t', exec i s = .next t ∧ exec i s' = .next t' ∧ AlikeOutcome s s' t t' := by
  have hs' := h.inv hs
  by_cases hi : unitOf i = 0
  · cases i
    case rdst =>
      refine ⟨_, _, exec_rdst hs, exec_rdst hs', ?_⟩
      rw [h.status_eq]
      exact alikeOutcome_respond _ h rfl rfl
    case eclr f =>
      obtain ⟨hchk, hacc, hbits, hdir, hstrict, herr⟩ := h
      exact ⟨_, _, exec_eclr hs f, exec_eclr hs' f, alikeOutcome_respond _
        ⟨hchk, hacc, hbits, hdir, hstrict, congrArg (· &&& ~~~f) herr⟩ rfl rfl⟩
    case srst =>
      exact ⟨_, _, exec_srst hs, exec_srst hs', alikeOutcome_respond _ (sameRegisters_resetRegisters s) rfl rfl⟩
    all_goals simp at hi
  · obtain ⟨t, ht⟩ := exec_completes i hs
    obtain ⟨t', ht'⟩ := exec_completes i hs'
    exact ⟨t, t', ht, ht', exec_alike_of_unit h hi hc ht ht'⟩

end Alike

/-- The same for a program, by induction on its commands. -/
theorem runCommands_alike_of_sameRegisters (is : List Instr) {s s' : State} (h : SameRegisters s s') (hs : s.Inv)
    (hc : s'.config = s.config) :
    ∃ t t', runCommands is s = .next t ∧ runCommands is s' = .next t' ∧ AlikeOutcome s s' t t' := by
  induction is generalizing s s' with
  | nil => exact ⟨s, s', rfl, rfl, h, [], (List.append_nil _).symm, (List.append_nil _).symm⟩
  | cons i is ih =>
    obtain ⟨u, u', hu, hu', halike⟩ := exec_alike_of_sameRegisters h i hs hc
    have hconfig : u'.config = u.config := by rw [(exec_answers i s' u' hu').config, hc, (exec_answers i s u hu).config]
    obtain ⟨t, t', ht, ht', hrest⟩ := ih halike.registers ((exec_answers i s u hu).inv hs) hconfig
    exact ⟨t, t', (runCommands_cons_of_next hu is).trans ht, (runCommands_cons_of_next hu' is).trans ht', halike.trans hrest⟩

/-! ### `STATUS` as a number (R30, R115) -/

theorem toNat_append_eq_mul_add {v w : Nat} (x : BitVec v) (y : BitVec w) : (x ++ y).toNat = x.toNat * 2 ^ w + y.toNat := by
  rw [BitVec.toNat_append, shiftLeft_or_of_lt y.isLt]

theorem status_toNat (s : State) :
    (status s).toNat = s.dir.toNat + 2 * s.strict.toNat + 4 * s.bits.toNat + 32 * (zFlag s).toNat + 256 * s.err.toNat := by
  rw [status]
  erw [toNat_append_eq_mul_add, toNat_append_eq_mul_add, toNat_append_eq_mul_add, toNat_append_eq_mul_add,
    toNat_append_eq_mul_add, toNat_append_eq_mul_add]
  simp only [BitVec.toNat_ofBool, BitVec.toNat_ofNat]
  omega

/-- `Z` as a number is 1 exactly when `CHK == 1` (R27). -/
theorem zFlag_toNat (s : State) : (zFlag s).toNat = if s.chk = 1 then 1 else 0 := by
  split
  case isTrue hchk => rw [zFlag_eq_true.mpr hchk]; rfl
  case isFalse hchk => rw [Bool.eq_false_iff.mpr (mt zFlag_eq_true.mp hchk)]; rfl

/-- The two bytes of a 16-bit value returned low byte first (R56): the value stands in the low half of the word. -/
theorem responseWord_ok2_bytes (x : BitVec 16) :
    responseWord (.ok2 (x.extractLsb' 0 8) (x.extractLsb' 8 8)) = BitVec.ofNat 32 (0x08000000 + x.toNat) := by
  apply BitVec.eq_of_toNat_eq
  have hx : x.toNat < 2 ^ 16 := x.isLt
  simp only [responseWord, rspWord_toNat, BitVec.extractLsb'_toNat, BitVec.ofNat_eq_ofNat, BitVec.toNat_ofNat,
    Nat.shiftRight_eq_div_pow]
  omega

/-! ### The word of `ECLR` (R62) -/

theorem encode_eclr (f : BitVec 4) : encode (.eclr f) = 0x0200 ||| f.setWidth 16 := by revert f; decide

/-! ### The statements -/

/-- Settles O26: `SRST` leaves both blocks the same registers, and from there the program runs alike. -/
theorem softResetForgetsTheStartState : Obligations.SoftResetForgetsTheStartState := by
  intro is s s' hs hs' hc
  have hsrst : AlikeOutcome s s' (respond .ok0 (resetRegisters s)) (respond .ok0 (resetRegisters s')) :=
    alikeOutcome_respond _ (sameRegisters_resetRegisters s) rfl rfl
  obtain ⟨t, t', ht, ht', hrest⟩ := runCommands_alike_of_sameRegisters is hsrst.registers (regrouperOk_of_empty rfl rfl) hc.symm
  obtain ⟨hregisters, rs, hrs, hrs'⟩ := hsrst.trans hrest
  exact ⟨t, t', rs, (runCommands_cons_of_next (exec_srst hs) is).trans ht,
    (runCommands_cons_of_next (exec_srst hs') is).trans ht', hrs, hrs', hregisters⟩

/-- Settles O27: the response holds the two bytes of `STATUS`, and `STATUS` is the sum of its fields. -/
theorem rdstReturnsStatus : Obligations.RdstReturnsStatus := by
  refine ⟨decode_encode .rdst, fun s hs => ?_⟩
  rw [exec_rdst hs, respond, responseWord_ok2_bytes, status_toNat, zFlag_toNat]
  simp only [Nat.add_assoc]

/-- Settles O28: the sixteen words are those `ECLR` encodes to; above them a bit form F reserves is set. -/
theorem eclrClearsTheChosenFlags : Obligations.EclrClearsTheChosenFlags := by
  refine ⟨fun f => ?_, fun f s hs => exec_eclr hs f, fun e => ⟨?_, ?_⟩, fun a s ha => ?_⟩
  · rw [← encode_eclr]
    exact decode_encode _
  · exact (congrArg (e &&& ·) BitVec.not_zero).trans BitVec.and_allOnes
  · exact BitVec.and_zero
  · have hreserved : Form.F.legalArg a = false := decide_eq_false (Nat.not_le.mpr ha)
    exact runWord_of_decode_error (decode_of_not_legalArg rfl hreserved) s

end Sys2Proof.Machine
end

section
/-! ## Sequences of commands with their responses (R14, R178)

What a sequence returns, said once over `trace` and `issueAll`: a sequence returns data exactly when its run has no fault
(`issueAll_eq_ok_iff`), and what is known of `runCommands` is known of `issueAll` (`issueAll_of_runCommands`). -/

namespace Sys2Proof.Machine

/-! ### One command and its response (R14) -/

theorem responseWord_injective : Function.Injective responseWord := fun a b h => by
  rw [← Option.some_inj, ← responseOfWord_responseWord, h, responseOfWord_responseWord]

/-- The host reads the one response a command adds. -/
theorem issue_eq_some_iff {i : Instr} {s t : State} {c : Response} :
    issue i s = some (c, t) ↔ exec i s = .next t ∧ t.responses = s.responses ++ [responseWord c] := by
  cases hexec : exec i s with
  | next v =>
    obtain ⟨d, u, hu, rfl⟩ := exec_writes i s v hexec
    have hissue : issue i s = some (d, respond d u) := by simp [issue, hexec]
    have hword : (respond d u).responses = s.responses ++ [responseWord c] ↔ d = c := by
      simp [hu.responses, responseWord_injective.eq_iff]
    rw [hissue, Option.some_inj, Prod.mk_inj, Host.Outcome.next.injEq, and_comm]
    exact and_congr_right fun h => h ▸ hword.symm
  | fault f => cases f
  | refused r => simp [issue, hexec]

theorem issue_of_exec {i : Instr} {s u : State} {c : Response} (h : exec i s = .next (respond c u))
    (hu : u.responses = s.responses) : issue i s = some (c, respond c u) :=
  issue_eq_some_iff.mpr ⟨h, by rw [respond_responses, hu]⟩

theorem issue_completes (i : Instr) {s : State} (h : s.Inv) : ∃ c t, issue i s = some (c, t) := by
  obtain ⟨t, ht⟩ := exec_completes i h
  obtain ⟨c, u, hu, rfl⟩ := exec_writes i s t ht
  exact ⟨c, _, issue_of_exec ht hu.responses⟩

/-! ### Sequences with their responses -/

theorem trace_cons_eq_some_iff {i : Instr} {is : List Instr} {s t : State} {tr : List (Instr × Response)} :
    trace (i :: is) s = some (tr, t) ↔
      ∃ c u tr', issue i s = some (c, u) ∧ trace is u = some (tr', t) ∧ (i, c) :: tr' = tr := by
  cases hi : issue i s with
  | none => simp [trace, hi]
  | some p =>
    obtain ⟨c, u⟩ := p
    simp [trace, hi, and_assoc]

/-- A run's commands are the ones issued. -/
theorem trace_commands {is : List Instr} {s t : State} {tr : List (Instr × Response)} (h : trace is s = some (tr, t)) :
    tr.map Prod.fst = is := by
  induction is generalizing s tr with
  | nil => simp_all
  | cons i is ih =>
    obtain ⟨c, u, tr', -, htrace, rfl⟩ := trace_cons_eq_some_iff.mp h
    rw [List.map_cons, ih htrace]

/-- A sequence keeps the block's `ALPHA31` and the regrouper invariant. -/
theorem trace_keeps {is : List Instr} {s t : State} {tr : List (Instr × Response)} (h : trace is s = some (tr, t)) :
    t.config = s.config ∧ (s.Inv → t.Inv) := by
  induction is generalizing s tr with
  | nil =>
    obtain ⟨-, rfl⟩ := Prod.mk_inj.mp (Option.some_inj.mp h)
    exact ⟨rfl, id⟩
  | cons i is ih =>
    obtain ⟨c, u, tr', hi, htrace, -⟩ := trace_cons_eq_some_iff.mp h
    have hu := exec_answers i s u (issue_eq_some_iff.mp hi).1
    obtain ⟨hconfig, hinv⟩ := ih htrace
    exact ⟨hconfig.trans hu.config, hinv ∘ hu.inv⟩

theorem trace_append {is js : List Instr} {s u t : State} {tr tr' : List (Instr × Response)}
    (h : trace is s = some (tr, u)) (h' : trace js u = some (tr', t)) : trace (is ++ js) s = some (tr ++ tr', t) := by
  induction is generalizing s tr with
  | nil =>
    obtain ⟨rfl, rfl⟩ := Prod.mk_inj.mp (Option.some_inj.mp h)
    exact h'
  | cons i is ih =>
    obtain ⟨c, v, tr₁, hi, htrace, rfl⟩ := trace_cons_eq_some_iff.mp h
    exact trace_cons_eq_some_iff.mpr ⟨c, v, _, hi, ih htrace, rfl⟩

theorem trace_of_runCommands {is : List Instr} {s t : State} {rs : List Response} (hrun : runCommands is s = .next t)
    (hresponses : t.responses = s.responses ++ rs.map responseWord) :
    ∃ tr, trace is s = some (tr, t) ∧ tr.map Prod.snd = rs := by
  have htrace : ∃ tr, trace is s = some (tr, t) ∧ t.responses = s.responses ++ (tr.map Prod.snd).map responseWord := by
    clear hresponses
    induction is generalizing s with
    | nil =>
      obtain rfl := Host.Outcome.next.inj hrun
      exact ⟨[], rfl, (List.append_nil _).symm⟩
    | cons i is ih =>
      cases hexec : exec i s with
      | next v =>
        obtain ⟨c, u, hu, rfl⟩ := exec_writes i s v hexec
        obtain ⟨tr, htrace, hresponses⟩ := ih ((runCommands_cons_of_next hexec is).symm.trans hrun)
        refine ⟨(i, c) :: tr, trace_cons_eq_some_iff.mpr ⟨c, _, tr, issue_of_exec hexec hu.responses, htrace, rfl⟩, ?_⟩
        rw [hresponses, respond_responses, hu.responses, List.append_assoc]
        rfl
      | fault f => cases f
      | refused r => cases (runCommands_cons_of_refused hexec is).symm.trans hrun
  obtain ⟨tr, htrace, hwords⟩ := htrace
  exact ⟨tr, htrace, List.map_injective_iff.mpr responseWord_injective (List.append_cancel_left (hwords.symm.trans hresponses))⟩

/-! ### The data of a run without a fault -/

theorem dataOf_cons_eq_ok_iff {c : Response} {rs : List Response} {data : List Byte} :
    dataOf (c :: rs) = .ok data ↔ ∃ d e, responseData c = .ok d ∧ dataOf rs = .ok e ∧ d ++ e = data := by
  cases hc : responseData c with
  | error k => simp [dataOf, hc]
  | ok d => cases hrs : dataOf rs <;> simp [dataOf, hc, hrs]

theorem dataOf_append {rs qs : List Response} {d e : List Byte} (h : dataOf rs = .ok d) (h' : dataOf qs = .ok e) :
    dataOf (rs ++ qs) = .ok (d ++ e) := by
  induction rs generalizing d with
  | nil =>
    obtain rfl := Except.ok.inj h
    exact h'
  | cons c rs ih =>
    obtain ⟨d₁, d₂, hc, hrs, rfl⟩ := dataOf_cons_eq_ok_iff.mp h
    exact dataOf_cons_eq_ok_iff.mpr ⟨d₁, _, hc, ih hrs, (List.append_assoc _ _ _).symm⟩

theorem dataOf_replicate_ok0 (n : Nat) : dataOf (List.replicate n .ok0) = .ok [] := by
  induction n with
  | zero => rfl
  | succ n ih => exact dataOf_cons_eq_ok_iff.mpr ⟨[], [], rfl, ih, rfl⟩

theorem isOk_of_responseData {c : Response} {d : List Byte} (h : responseData c = .ok d) : c.isOk = true := by
  cases c with
  | error k => cases h
  | _ => rfl

/-- A run that returns data has no fault. -/
theorem forall_isOk_of_dataOf {rs : List Response} {data : List Byte} (h : dataOf rs = .ok data) : ∀ r ∈ rs, r.isOk = true := by
  induction rs generalizing data with
  | nil => exact List.forall_mem_nil _
  | cons c rs ih =>
    obtain ⟨d, e, hc, hrs, -⟩ := dataOf_cons_eq_ok_iff.mp h
    exact List.forall_mem_cons.mpr ⟨isOk_of_responseData hc, ih hrs⟩

theorem Call.andThen_eq_ok_iff {α β : Type} {c : Call α} {f : α → State → Call β} {b : β} {t : State} :
    c.andThen f = ⟨.ok b, t⟩ ↔ ∃ a u, c = ⟨.ok a, u⟩ ∧ f a u = ⟨.ok b, t⟩ := by
  rcases c with ⟨_ | a, s⟩ <;> simp

theorem issueAll_cons_eq_ok_iff {i : Instr} {is : List Instr} {s t : State} {data : List Byte} :
    issueAll (i :: is) s = ⟨.ok data, t⟩ ↔
      ∃ c u d e, issue i s = some (c, u) ∧ responseData c = .ok d ∧ issueAll is u = ⟨.ok e, t⟩ ∧ d ++ e = data := by
  cases hi : issue i s with
  | none => simp [issueAll, hi]
  | some p =>
    obtain ⟨c, u⟩ := p
    cases hc : responseData c with
    | error k => simp [issueAll, hi, hc]
    | ok d => simp [issueAll, hi, hc, Call.andThen_eq_ok_iff]

/-- A sequence returns data exactly when no response of its run is a fault, and then the run's data. -/
theorem issueAll_eq_ok_iff {is : List Instr} {s t : State} {data : List Byte} :
    issueAll is s = ⟨.ok data, t⟩ ↔ ∃ tr, trace is s = some (tr, t) ∧ dataOf (tr.map Prod.snd) = .ok data := by
  induction is generalizing s data with
  | nil => simp [issueAll, dataOf, and_comm]
  | cons i is ih =>
    rw [issueAll_cons_eq_ok_iff]
    constructor
    · rintro ⟨c, u, d, e, hi, hc, hall, hdata⟩
      obtain ⟨tr, htrace, hrest⟩ := ih.mp hall
      exact ⟨_, trace_cons_eq_some_iff.mpr ⟨c, u, tr, hi, htrace, rfl⟩, dataOf_cons_eq_ok_iff.mpr ⟨d, e, hc, hrest, hdata⟩⟩
    · rintro ⟨_, hall, hdata⟩
      obtain ⟨c, u, tr, hi, htrace, rfl⟩ := trace_cons_eq_some_iff.mp hall
      obtain ⟨d, e, hc, hrest, hdata⟩ := dataOf_cons_eq_ok_iff.mp hdata
      exact ⟨c, u, d, e, hi, hc, ih.mpr ⟨tr, htrace, hrest⟩, hdata⟩

theorem issueAll_append {is js : List Instr} {s u t : State} {d e : List Byte} (h : issueAll is s = ⟨.ok d, u⟩)
    (h' : issueAll js u = ⟨.ok e, t⟩) : issueAll (is ++ js) s = ⟨.ok (d ++ e), t⟩ := by
  obtain ⟨tr, htrace, hdata⟩ := issueAll_eq_ok_iff.mp h
  obtain ⟨tr', htrace', hdata'⟩ := issueAll_eq_ok_iff.mp h'
  exact issueAll_eq_ok_iff.mpr ⟨_, trace_append htrace htrace', List.map_append ▸ dataOf_append hdata hdata'⟩

theorem issueAll_keeps {is : List Instr} {s t : State} {data : List Byte} (h : issueAll is s = ⟨.ok data, t⟩) :
    t.config = s.config ∧ (s.Inv → t.Inv) := by
  obtain ⟨tr, htrace, -⟩ := issueAll_eq_ok_iff.mp h
  exact trace_keeps htrace

/-- What is known of a run of commands, read as the host reads it. -/
theorem issueAll_of_runCommands {is : List Instr} {s t : State} {rs : List Response} {data : List Byte}
    (hrun : runCommands is s = .next t) (hresponses : t.responses = s.responses ++ rs.map responseWord)
    (hdata : dataOf rs = .ok data) : issueAll is s = ⟨.ok data, t⟩ := by
  obtain ⟨tr, htrace, rfl⟩ := trace_of_runCommands hrun hresponses
  exact issueAll_eq_ok_iff.mpr ⟨tr, htrace, hdata⟩

/-- Commands that return one item each and change no register return their items in order. -/
theorem issueAll_map_of_reads {α : Type} {f : α → Instr} {g : α → Byte} {s : State}
    (h : ∀ x rs, exec (f x) { s with responses := rs } = .next (respond (.ok1 (g x)) { s with responses := rs })) (l : List α) :
    ∃ rs, issueAll (l.map f) s = ⟨.ok (l.map g), { s with responses := rs }⟩ := by
  suffices hall : ∀ rs, ∃ rs', issueAll (l.map f) { s with responses := rs } = ⟨.ok (l.map g), { s with responses := rs' }⟩ from
    hall s.responses
  induction l with
  | nil => exact fun rs => ⟨rs, rfl⟩
  | cons x l ih =>
    intro rs
    obtain ⟨rs', hrest⟩ := ih (rs ++ [responseWord (.ok1 (g x))])
    exact ⟨rs', issueAll_cons_eq_ok_iff.mpr ⟨_, _, _, _, issue_of_exec (h x rs) rfl, rfl, hrest, rfl⟩⟩

end Sys2Proof.Machine
end

section
/-! ## Whole calls: the address encoder and decoder (R131 to R141)

What each command sequence of a call returns: the conversions, the checksum of `pre` and a payload, the two alphabet lookups; then
the encoder's stages, the decoder on plain strings, and the statements on the two calls. -/

namespace Sys2Proof.Machine

/-! ### Symbols as bytes (R12, R64) -/

/-- Symbols as the data items and operands that carry them. -/
abbrev symbolBytes (xs : List Symbol) : List Byte := xs.map (BitVec.setWidth 8)

theorem symbolBytes_toNat (xs : List Symbol) : (symbolBytes xs).map BitVec.toNat = xs.map BitVec.toNat := by
  rw [List.map_map]
  exact List.map_congr_left fun x _ => BitVec.toNat_setWidth_of_le (by decide)

/-! ### The conversions (R90, R92) -/

/-- Where `convertBits` succeeds, the conversion returns its values. -/
theorem issueAll_conversion {m : BitVec 2} {values : List Byte} {out : List Nat} {s : State} (hs : s.Inv)
    (h : convertBits (values.map BitVec.toNat) (if m.toNat % 2 = 1 then 5 else 8) (if m.toNat % 2 = 1 then 8 else 5)
      (decide (m.toNat / 2 = 1)) = .ok out) :
    ∃ data t, issueAll (conversionCommands m values) s = ⟨.ok data, t⟩ ∧ data.map BitVec.toNat = out := by
  obtain ⟨t, rs, hrun, hresponses, hdata⟩ := streamingEqualsConvertBits m values s hs
  rw [h] at hdata
  cases hrs : dataOf rs with
  | error k => rw [hrs] at hdata; cases hdata
  | ok data =>
    rw [hrs] at hdata
    exact ⟨data, t, issueAll_of_runCommands hrun hresponses hrs, Except.ok.inj hdata⟩

/-- The conversion of bytes to symbols returns symbols from which the strict conversion gives the bytes back. -/
theorem issueAll_conversion_roundTrips (values : List Byte) : ∃ xs : List Symbol,
    (∀ s : State, s.Inv → ∃ t, issueAll (conversionCommands 0 values) s = ⟨.ok (symbolBytes xs), t⟩) ∧
    (∀ s : State, s.Inv → ∃ t, issueAll (conversionCommands 3 (symbolBytes xs)) s = ⟨.ok values, t⟩) := by
  obtain ⟨symbols, hto, hback⟩ := regroupingRoundTrips values
  have hlt : ∀ v ∈ symbols, v < 2 ^ 5 := by
    by_contra hnot
    cases (convertBits_of_not_lt hnot true).symm.trans hback
  obtain ⟨xs, rfl⟩ : ∃ xs : List Symbol, xs.map BitVec.toNat = symbols :=
    ⟨symbols.map (BitVec.ofNat 5), by
      rw [List.map_map]
      exact (List.map_congr_left fun v hv => (BitVec.toNat_ofNat v 5).trans (Nat.mod_eq_of_lt (hlt v hv))).trans (List.map_id _)⟩
  have htoNat {l l' : List Byte} (h : l.map BitVec.toNat = l'.map BitVec.toNat) : l = l' :=
    List.map_injective_iff.mpr (fun _ _ => BitVec.eq_of_toNat_eq) h
  rw [← symbolBytes_toNat] at hto hback
  refine ⟨xs, fun s hs => ?_, fun s hs => ?_⟩
  · obtain ⟨data, t, hall, hdata⟩ := issueAll_conversion (m := 0) hs hto
    exact ⟨t, htoNat hdata ▸ hall⟩
  · obtain ⟨data, t, hall, hdata⟩ := issueAll_conversion (m := 3) hs hback
    exact ⟨t, htoNat hdata ▸ hall⟩

/-! ### The checksum of `pre` and a payload (R107 to R109) -/

/-- The checksum input: the low five bits of the characters of `pre`, the separator, the symbols (R107). -/
def checksumInput (pre : List Byte) (xs : List Symbol) : List Symbol := pre.map (fun c => (c &&& 0x1F).setWidth 5) ++ 0 :: xs

/-- The eight checksum symbols of a payload (R108). -/
def checksumOf (pre : List Byte) (xs : List Symbol) : List Symbol :=
  checksumSymbols (polymod (checksumInput pre (xs ++ List.replicate 8 0)))

theorem checksumOf_length (pre : List Byte) (xs : List Symbol) : (checksumOf pre xs).length = 8 := rfl

/-- A payload with its checksum symbols validates (R110). -/
theorem polymod_checksumOf (pre : List Byte) (xs : List Symbol) : polymod (checksumInput pre (xs ++ checksumOf pre xs)) = 0 := by
  have happend (ys : List Symbol) : checksumInput pre (xs ++ ys) = checksumInput pre xs ++ ys := by simp [checksumInput]
  rw [checksumOf, happend, happend]
  exact generationAndValidationAgree _

section Inv
variable {s : State} (hs : s.Inv) (pre : List Byte) (xs : List Symbol)
include hs

/-- Feeding the checksum input returns nothing and leaves its `polymod` (R100). -/
theorem issueAll_checksum :
    ∃ t, issueAll (checksumCommands pre (symbolBytes xs)) s = ⟨.ok [], t⟩ ∧ t.chk ^^^ 1 = polymod (checksumInput pre xs) := by
  have hcommands : checksumCommands pre (symbolBytes xs) =
      .cinit :: (pre.map .cpfx ++ (0 :: xs).map fun x => .csym (x.setWidth 8)) := by
    simp [checksumCommands, expand]
  have hrun := feedingCommandsComputePolymod pre (0 :: xs) s hs
  rw [← hcommands] at hrun
  refine ⟨_, issueAll_of_runCommands (rs := .replicate (1 + pre.length + (0 :: xs).length) .ok0) hrun ?_
    (dataOf_replicate_ok0 _), ?_⟩
  · rw [List.map_replicate, responseWord_ok0]
  · rw [BitVec.xor_assoc, BitVec.xor_self, BitVec.xor_zero]
    rfl

/-- Generation returns the checksum symbols (R108). -/
theorem issueAll_generation :
    ∃ t, issueAll (generationCommands pre (symbolBytes xs)) s = ⟨.ok (symbolBytes (checksumOf pre xs)), t⟩ := by
  have hpad : checksumCommands pre (symbolBytes xs) ++ expand .cpad8 =
      checksumCommands pre (symbolBytes (xs ++ List.replicate 8 0)) := by
    simp [checksumCommands, expand]
  obtain ⟨u, hfeed, hchk⟩ := issueAll_checksum hs pre (xs ++ List.replicate 8 0)
  have hu : u.Inv := (issueAll_keeps hfeed).2 hs
  obtain ⟨rs, hread⟩ := issueAll_map_of_reads (s := u) (f := .cget) (g := fun k => (checksumSymbol (u.chk ^^^ 1) k).setWidth 8)
    (fun k rs => exec_cget (s := { u with responses := rs }) hu k) [0, 1, 2, 3, 4, 5, 6, 7]
  rw [hchk] at hread
  rw [generationCommands, hpad]
  exact ⟨_, issueAll_append hfeed hread⟩

/-- Validation returns `STATUS`, in which bit 5 says whether the `polymod` is 0 (R109). -/
theorem issueAll_validation :
    ∃ d₀ d₁ t, issueAll (validationCommands pre (symbolBytes xs)) s = ⟨.ok [d₀, d₁], t⟩ ∧
      d₀.getLsbD 5 = decide (polymod (checksumInput pre xs) = 0) := by
  obtain ⟨u, hfeed, hchk⟩ := issueAll_checksum hs pre xs
  have hu : u.Inv := (issueAll_keeps hfeed).2 hs
  have hread : issueAll [.rdst] u = ⟨.ok [(status u).extractLsb' 0 8, (status u).extractLsb' 8 8], respond _ u⟩ :=
    issueAll_cons_eq_ok_iff.mpr ⟨_, _, _, [], issue_of_exec (exec_rdst hu) rfl, rfl, rfl, rfl⟩
  refine ⟨_, _, _, issueAll_append hfeed hread, ?_⟩
  have hz : zFlag u = decide (polymod (checksumInput pre xs) = 0) := by
    have hzero : u.chk ^^^ 1 = 0 ↔ u.chk = 1 := BitVec.xor_eq_zero_iff
    rw [← hchk, decide_eq_decide.mpr hzero]
    rfl
  rw [BitVec.getLsbD_extractLsb', ← hz, ← status_getLsbD_five]
  rfl

/-- The host takes `pre` for the right one exactly when the `polymod` is 0 (R109, R133). -/
theorem validates_eq :
    ∃ t, validates pre (symbolBytes xs) s = ⟨.ok (decide (polymod (checksumInput pre xs) = 0)), t⟩ ∧ t.Inv := by
  obtain ⟨d₀, d₁, t, hall, hbit⟩ := issueAll_validation hs pre xs
  exact ⟨t, by simp only [validates, hall, Call.andThen_ok, hbit], (issueAll_keeps hall).2 hs⟩

end Inv

/-! ### Symbols to characters and back (R77 to R79) -/

section Inv
variable {s : State} (hs : s.Inv)
include hs

theorem issueAll_s2a (xs : List Symbol) :
    ∃ t, issueAll ((symbolBytes xs).map .s2a) s = ⟨.ok (xs.map (alphaOf s.config)), t⟩ := by
  have hread (x : Symbol) (rs : List RspWord) : exec (.s2a (x.setWidth 8)) { s with responses := rs } =
      .next (respond (.ok1 (alphaOf s.config x)) { s with responses := rs }) := by
    rw [exec_s2a_of_some (s := { s with responses := rs }) hs (operandSymbol_setWidth x), ← responseWord_ok1]
    rfl
  obtain ⟨rs, hall⟩ := issueAll_map_of_reads hread xs
  exact ⟨_, List.map_map ▸ hall⟩

theorem issueAll_a2s (hcfg : legalConfig s.config = true) (xs : List Symbol) :
    ∃ t, issueAll ((xs.map (alphaOf s.config)).map .a2s) s = ⟨.ok (symbolBytes xs), t⟩ := by
  have hread (x : Symbol) (rs : List RspWord) : exec (.a2s (alphaOf s.config x)) { s with responses := rs } =
      .next (respond (.ok1 (x.setWidth 8)) { s with responses := rs }) := by
    rw [exec_a2s_of_some (s := { s with responses := rs }) hs (symbolOf_alphaOf hcfg x), ← responseWord_symbol]
    rfl
  obtain ⟨rs, hall⟩ := issueAll_map_of_reads hread xs
  exact ⟨_, List.map_map ▸ hall⟩

end Inv

/-- `A2S` without a fault returns a symbol. -/
theorem exists_symbol_of_issue_a2s {c : Byte} {r : Response} {s t : State} {d : List Byte} (h : issue (.a2s c) s = some (r, t))
    (hd : responseData r = .ok d) : ∃ x : Symbol, d = [x.setWidth 8] := by
  obtain ⟨hexec, hresponse⟩ := issue_eq_some_iff.mp h
  have hs : s.Inv := inv_of_exec_next hexec
  cases hc : symbolOf s.config c with
  | some x =>
    obtain rfl := Host.Outcome.next.inj ((exec_a2s_of_some hs hc).symm.trans hexec)
    rw [← responseWord_symbol] at hresponse
    obtain rfl := responseWord_injective (List.singleton_inj.mp (List.append_cancel_left hresponse))
    exact ⟨x, (Except.ok.inj hd).symm⟩
  | none =>
    obtain rfl := Host.Outcome.next.inj ((exec_a2s_of_none hs hc).symm.trans hexec)
    obtain rfl : .error .invalidCharacter = r :=
      responseWord_injective (List.singleton_inj.mp (List.append_cancel_left hresponse))
    cases hd

theorem exists_symbolBytes_of_issueAll_a2s {text symbols : List Byte} {s t : State}
    (h : issueAll (text.map .a2s) s = ⟨.ok symbols, t⟩) : ∃ xs, symbolBytes xs = symbols := by
  induction text generalizing s symbols with
  | nil => cases h; exact ⟨[], rfl⟩
  | cons c text ih =>
    obtain ⟨r, u, d, e, hi, hd, hrest, rfl⟩ := issueAll_cons_eq_ok_iff.mp h
    obtain ⟨x, rfl⟩ := exists_symbol_of_issue_a2s hi hd
    obtain ⟨xs, rfl⟩ := ih hrest
    exact ⟨x :: xs, rfl⟩

/-! ### The size table and the version byte (R126 to R128) -/

theorem sizeCode_eq_none_iff (n : Nat) : sizeCode (n * 8) = none ↔ n ∉ [20, 24, 28, 32, 40, 48, 56, 64] := by
  simp only [sizeCode, sizeTable, Option.map_eq_none_iff, List.find?_eq_none, List.mem_cons, List.not_mem_nil, or_false, beq_iff_eq,
    forall_eq_or_imp, forall_eq, not_or]
  omega

theorem mem_sizeTable_of_sizeCode {bits code : Nat} (h : sizeCode bits = some code) : (bits, code) ∈ sizeTable := by
  obtain ⟨⟨b, c⟩, hfind, rfl⟩ := Option.map_eq_some_iff.mp h
  have hb : (b == bits) = true := List.find?_some (p := fun p : Nat × Nat => p.1 == bits) hfind
  obtain rfl := beq_iff_eq.mp hb
  exact List.mem_of_find?_eq_some hfind

/-- A version byte made from a row of the table gives the row's hash size and the type back. -/
theorem versionByte_reads (ty : AddressType) : ∀ p ∈ sizeTable,
    hashBitsOfCode (versionByte ty p.2 &&& 7).toNat = some p.1 ∧ typeOfVersion (versionByte ty p.2) = some ty := by
  cases ty <;> decide

/-- The bytes an encode converts read back as hash and type (R136, R137). -/
theorem readPayload_versionByte {hash : List Byte} {code : Nat} (h : sizeCode (hash.length * 8) = some code) (ty : AddressType) :
    readPayload (versionByte ty code :: hash) = .ok (hash, ty) := by
  obtain ⟨hbits, htype⟩ := versionByte_reads ty _ (mem_sizeTable_of_sizeCode h)
  rw [readPayload, if_neg (not_not.mpr hbits), htype]

/-! ### The encoder (R131) -/

/-- The characters of an encoded payload and its checksum. -/
def addressText (cfg : Config) (pre : List Byte) (xs : List Symbol) : List Byte := (xs ++ checksumOf pre xs).map (alphaOf cfg)

/-- An encode whose three sequences return data returns the text, after the last of them. -/
theorem encodeAddress_of_stages {hash pre payload check text : List Byte} {ty : AddressType} {code : Nat} {s s₁ s₂ s₃ : State}
    (hcode : sizeCode (hash.length * 8) = some code)
    (h₁ : issueAll (conversionCommands 0 (versionByte ty code :: hash)) s = ⟨.ok payload, s₁⟩)
    (h₂ : issueAll (generationCommands pre payload) s₁ = ⟨.ok check, s₂⟩)
    (h₃ : issueAll ((payload ++ check).map .s2a) s₂ = ⟨.ok text, s₃⟩) (withPre : Bool) :
    encodeAddress hash ty pre withPre s = ⟨.ok (if withPre then pre ++ [colon] ++ text else text), s₃⟩ := by
  simp only [encodeAddress, hcode, h₁, h₂, h₃, Call.andThen_ok]

/-- From a converted payload on, an encode cannot fail: its symbols are symbols (R131 steps 4 to 6). -/
theorem encode_stages_complete (pre : List Byte) (xs : List Symbol) {s : State} (hs : s.Inv) :
    ∃ t u, issueAll (generationCommands pre (symbolBytes xs)) s = ⟨.ok (symbolBytes (checksumOf pre xs)), t⟩ ∧
      issueAll ((symbolBytes xs ++ symbolBytes (checksumOf pre xs)).map .s2a) t = ⟨.ok (addressText s.config pre xs), u⟩ := by
  obtain ⟨t, hgen⟩ := issueAll_generation hs pre xs
  obtain ⟨hconfig, hinv⟩ := issueAll_keeps hgen
  obtain ⟨u, htext⟩ := issueAll_s2a (hinv hs) (xs ++ checksumOf pre xs)
  refine ⟨t, u, hgen, ?_⟩
  rw [← List.map_append, addressText, ← hconfig]
  exact htext

/-! ### The errors of a sequence (R139) -/

theorem Call.andThen_result_error_iff {α β : Type} {c : Call α} {f : α → State → Call β} {e : CallError} :
    (c.andThen f).result = .error e ↔
      c.result = .error e ∨ ∃ a, c.result = .ok a ∧ (f a c.block).result = .error e := by
  rcases c with ⟨_ | a, s⟩ <;> simp

/-- No fault of the block is reported so: the error is the encoder's own (R131 step 1). -/
theorem issueAll_ne_unsupportedHashSize (is : List Instr) (s : State) : (issueAll is s).result ≠ .error .unsupportedHashSize := by
  induction is generalizing s with
  | nil => exact nofun
  | cons i is ih =>
    cases hi : issue i s with
    | none => simp [issueAll, hi]
    | some p =>
      obtain ⟨c, u⟩ := p
      cases hc : responseData c with
      | error k => cases k <;> simp [issueAll, hi, hc, callErrorOf]
      | ok d => simp [issueAll, hi, hc, Call.andThen_result_error_iff, ih]

/-! ### Splitting a string (R132) -/

theorem splitColon_of_not_mem {text : List Byte} (h : colon ∉ text) : splitColon text = [text] := by
  induction text with
  | nil => rfl
  | cons c text ih =>
    obtain ⟨hc, htext⟩ := not_or.mp (List.mem_cons.not.mp h)
    rw [splitColon, if_neg (by simpa using Ne.symm hc), ih htext]

theorem splitColon_append {pre : List Byte} (h : colon ∉ pre) (text : List Byte) :
    splitColon (pre ++ colon :: text) = pre :: splitColon text := by
  induction pre with
  | nil => exact if_pos (beq_self_eq_true colon)
  | cons c pre ih =>
    obtain ⟨hc, hpre⟩ := not_or.mp (List.mem_cons.not.mp h)
    rw [List.cons_append, splitColon, if_neg (by simpa using Ne.symm hc), ih hpre]

theorem plainPre_iff {p : List Byte} : plainPre p = true ↔ (∀ c ∈ p, isUpper c = false) ∧ colon ∉ p := by
  simp only [plainPre, List.all_eq_true, Bool.and_eq_true, Bool.not_eq_true', bne_iff_ne, forall_and]
  refine and_congr_right fun _ => ⟨fun h hmem => h _ hmem rfl, ?_⟩
  rintro h c hc rfl
  exact h hc

/-- Without uppercase letters there is one case, and folding does nothing. -/
theorem singleCase_and_map_foldCase_of_not_upper {text : List Byte} (h : ∀ c ∈ text, isUpper c = false) :
    singleCase text = true ∧ text.map foldCase = text := by
  have hany : text.any isUpper = false := List.any_eq_false.mpr fun c hc => Bool.not_eq_true _ ▸ h c hc
  refine ⟨by rw [singleCase, hany]; rfl, ?_⟩
  exact (List.map_congr_left fun c hc => (foldCase_eq_self_iff c).mpr (h c hc)).trans (List.map_id _)

section Plain
variable {text : List Byte} (htext : plainPre text = true) (candidates : List (List Byte)) (s : State)
include htext

/-- A plain text alone is decoded with the candidates (R134). -/
theorem decodeAddress_of_plainPre : decodeAddress text candidates s = decodeData candidates text s := by
  obtain ⟨hupper, hcolon⟩ := plainPre_iff.mp htext
  obtain ⟨hcase, hfold⟩ := singleCase_and_map_foldCase_of_not_upper hupper
  simp only [decodeAddress, hcase, hfold, splitColon_of_not_mem hcolon]
  rfl

/-- A plain text after a plain `pre` and the separator is decoded with `pre` as the one candidate (R133). -/
theorem decodeAddress_pre_colon {pre : List Byte} (hpre : plainPre pre = true) :
    decodeAddress (pre ++ [colon] ++ text) candidates s = decodeData [pre] text s := by
  obtain ⟨hupper, hcolon⟩ := plainPre_iff.mp htext
  obtain ⟨hupperPre, hcolonPre⟩ := plainPre_iff.mp hpre
  have haddress : pre ++ [colon] ++ text = pre ++ colon :: text := List.append_assoc _ _ _
  have hupperAll : ∀ c ∈ pre ++ colon :: text, isUpper c = false :=
    List.forall_mem_append.mpr ⟨hupperPre, List.forall_mem_cons.mpr ⟨rfl, hupper⟩⟩
  obtain ⟨hcase, hfold⟩ := singleCase_and_map_foldCase_of_not_upper hupperAll
  simp only [decodeAddress, haddress, hcase, hfold, splitColon_append hcolonPre, splitColon_of_not_mem hcolon]
  rfl

end Plain

/-- With an `ALPHA31` that is legal and not the separator, the text of a payload is plain. -/
theorem plainPre_addressText {cfg : Config} (h : legalConfig cfg = true) (hsep : cfg.alpha31 ≠ colon) (pre : List Byte)
    (xs : List Symbol) : plainPre (addressText cfg pre xs) = true := by
  obtain ⟨-, hfold, -⟩ := legalConfig_iff.mp h
  have hcolon (x : Symbol) : alphaOf cfg x ≠ colon := by
    intro heq
    obtain hmem | hmem := mem_alphaTable.mp (heq ▸ alphaOf_mem cfg x)
    · exact absurd hmem (by decide)
    · exact hsep hmem.symm
  refine plainPre_iff.mpr ⟨List.forall_mem_map.mpr fun x _ => ?_, fun hmem => ?_⟩
  · exact alphaOf_not_upper ((foldCase_eq_self_iff _).mp hfold) x
  · obtain ⟨x, -, hx⟩ := List.mem_map.mp hmem
    exact hcolon x hx

/-! ### The decoder (R133 to R138) -/

/-- Decoding the text of a payload with the `pre` it was made with gives what the payload reads as. -/
theorem decodeData_addressText {values hash pre : List Byte} {ty : AddressType} {xs : List Symbol} {s : State} (hs : s.Inv)
    (hcfg : legalConfig s.config = true)
    (hback : ∀ t : State, t.Inv → ∃ u, issueAll (conversionCommands 3 (symbolBytes xs)) t = ⟨.ok values, u⟩)
    (hread : readPayload values = .ok (hash, ty)) :
    (decodeData [pre] (addressText s.config pre xs) s).result = .ok (hash, ty, pre) := by
  obtain ⟨s₁, hsymbols⟩ := issueAll_a2s hs hcfg (xs ++ checksumOf pre xs)
  obtain ⟨s₂, hvalid, hs₂⟩ := validates_eq ((issueAll_keeps hsymbols).2 hs) pre (xs ++ checksumOf pre xs)
  obtain ⟨s₃, hbytes⟩ := hback s₂ hs₂
  have hfind : findPre (symbolBytes (xs ++ checksumOf pre xs)) [pre] s₁ = ⟨.ok pre, s₂⟩ := by
    rw [findPre, hvalid, decide_eq_true (polymod_checksumOf pre xs)]
    rfl
  have hlength : (symbolBytes (xs ++ checksumOf pre xs)).length = xs.length + 8 := by simp [checksumOf_length]
  have htake : (symbolBytes (xs ++ checksumOf pre xs)).take xs.length = symbolBytes xs := by simp
  simp only [decodeData, addressText, hsymbols, hfind, Call.andThen_ok, hlength, Nat.add_sub_cancel, htake, hbytes, hread]
  rw [if_neg (by omega)]

/-! ### The statements on the two calls -/

/-- Settles O53: both sides decode the text with `pre` as the one candidate. -/
theorem omittedPrefixDecodesAlike : Obligations.OmittedPrefixDecodesAlike := by
  intro pre text candidates s hpre htext
  rw [decodeAddress_of_plainPre htext]
  exact decodeAddress_pre_colon htext candidates s hpre

/-- Settles O52: a length outside the table has no size code, and no sequence of commands fails with that error. -/
theorem unsupportedHashSizeFailsFirst : Obligations.UnsupportedHashSizeFailsFirst := by
  intro hash pre ty withPre s
  cases hcode : sizeCode (hash.length * 8) with
  | none =>
    have hmem := (sizeCode_eq_none_iff _).mp hcode
    have hfails : encodeAddress hash ty pre withPre s = ⟨.error .unsupportedHashSize, s⟩ := by simp only [encodeAddress, hcode]
    exact ⟨iff_of_true (congrArg Call.result hfails) hmem, fun _ => congrArg Call.block hfails⟩
  | some code =>
    have hmem : ¬ hash.length ∉ [20, 24, 28, 32, 40, 48, 56, 64] := by rw [← sizeCode_eq_none_iff, hcode]; exact nofun
    refine ⟨iff_of_false ?_ hmem, fun h => absurd h hmem⟩
    simp [encodeAddress, hcode, Call.andThen_result_error_iff, issueAll_ne_unsupportedHashSize]

/-- Settles O51: the text's symbols validate (R110) and convert back strictly to version byte and hash (R92). -/
theorem addressRoundTrip : Obligations.AddressRoundTrip := by
  intro hash pre ty s u hlength hpre hs hu hcfg hsep hconfig
  obtain ⟨code, hcode⟩ := Option.ne_none_iff_exists'.mp fun h => (sizeCode_eq_none_iff _).mp h hlength
  obtain ⟨xs, hto, hback⟩ := issueAll_conversion_roundTrips (versionByte ty code :: hash)
  obtain ⟨s₁, hpayload⟩ := hto s hs
  obtain ⟨hconfig₁, hinv₁⟩ := issueAll_keeps hpayload
  obtain ⟨s₂, s₃, hcheck, htext⟩ := encode_stages_complete pre xs (hinv₁ hs)
  refine ⟨_, congrArg Call.result (encodeAddress_of_stages hcode hpayload hcheck htext true), ?_⟩
  rw [← hconfig] at hcfg hsep hconfig₁
  rw [if_pos rfl, hconfig₁, decodeAddress_pre_colon (plainPre_addressText hcfg hsep pre xs) _ _ hpre]
  exact decodeData_addressText hu hcfg hback (readPayload_versionByte hcode ty)

end Sys2Proof.Machine
end

section
/-! ## The host's rules over the sequences of a call (R173, R177 to R179)

The standing a run leaves (`Watch.after`), and what a sequence without a fault leads to (`Leads`), one lemma per sequence of a
call; then the statement on the check. -/

namespace Sys2Proof.Machine

/-! ### The standing after a run -/

/-- The host's standing after a run, or none where the run breaks a rule. -/
def Watch.after (w : Watch) (tr : List (Instr × Response)) : Option Watch := tr.foldlM (fun v p => v.next p.1 p.2) w

theorem Watch.after_cons (w : Watch) (i : Instr) (r : Response) (tr : List (Instr × Response)) :
    w.after ((i, r) :: tr) = (w.next i r).bind fun v => v.after tr := rfl

theorem Watch.after_append (w : Watch) (tr tr' : List (Instr × Response)) :
    w.after (tr ++ tr') = (w.after tr).bind fun v => v.after tr' := List.foldlM_append

/-- A run keeps the rules when each of its commands does and no conversion is left open. -/
theorem disciplined_iff_after {w : Watch} {tr : List (Instr × Response)} :
    disciplined w tr = true ↔ ∃ v, w.after tr = some v ∧ v.conversion ≠ .running := by
  induction tr generalizing w with
  | nil => simp [Watch.after]
  | cons p tr ih =>
    obtain ⟨i, r⟩ := p
    rw [disciplined_cons, Watch.after_cons]
    cases w.next i r <;> simp [ih]

/-- A run breaks the rules when its rest does from every standing its first command can leave. -/
theorem disciplined_cons_eq_false {w : Watch} {i : Instr} {r : Response} {rest : List (Instr × Response)}
    (h : ∀ v, w.next i r = some v → disciplined v rest = false) : disciplined w ((i, r) :: rest) = false := by
  simp only [disciplined]
  cases hv : w.next i r with
  | none => rfl
  | some v => exact h v hv

/-! ### What a sequence without a fault leads to -/

/-- Whatever the responses of the commands, if none is a fault the host keeps the rules from `w` and then stands at `v`. -/
def Leads (is : List Instr) (w v : Watch) : Prop :=
  ∀ tr : List (Instr × Response), tr.map Prod.fst = is → (∀ r ∈ tr.map Prod.snd, r.isOk = true) → w.after tr = some v

theorem Leads.nil (w : Watch) : Leads [] w w := by
  intro tr hcommands _
  obtain rfl := List.map_eq_nil_iff.mp hcommands
  rfl

theorem Leads.cons {i : Instr} {is : List Instr} {w u v : Watch} (h : ∀ r, r.isOk = true → w.next i r = some u)
    (h' : Leads is u v) : Leads (i :: is) w v := by
  rintro (_ | ⟨⟨j, r⟩, tr⟩) hcommands hok
  · cases hcommands
  · obtain ⟨rfl, hrest⟩ := List.cons.inj hcommands
    obtain ⟨hr, hok⟩ := List.forall_mem_cons.mp hok
    rw [Watch.after_cons, h r hr]
    exact h' tr hrest hok

theorem Leads.append {is js : List Instr} {w u v : Watch} (h : Leads is w u) (h' : Leads js u v) : Leads (is ++ js) w v := by
  intro tr hcommands hok
  obtain ⟨tr₁, tr₂, rfl, hfst, hsnd⟩ := List.map_eq_append_iff.mp hcommands
  rw [List.map_append, List.forall_mem_append] at hok
  rw [Watch.after_append, h tr₁ hfst hok.1]
  exact h' tr₂ hsnd hok.2

/-- Commands that each leave the standing as it is leave it so together. -/
theorem Leads.map_self {α : Type} {f : α → Instr} {w : Watch} (h : ∀ x r, r.isOk = true → w.next (f x) r = some w) (l : List α) :
    Leads (l.map f) w w := by
  induction l with
  | nil => exact .nil w
  | cons x l ih => exact .cons (h x) ih

theorem UnitPhase.fed_running {r : Response} (h : r.isOk = true) : UnitPhase.fed .running r = some .running :=
  UnitPhase.fed_eq_some.mpr ⟨.inl rfl, (if_pos h).symm⟩

/-- A unit may be begun anew exactly when no call of it is running (R177). -/
theorem UnitPhase.begun_eq_some {p q : UnitPhase} : p.begun = some q ↔ p ≠ .running ∧ q = .running := by
  by_cases h : p = .running
  · simp [UnitPhase.begun, h]
  · simp [UnitPhase.begun, h, eq_comm]

section Standing
variable (conversion checksum : UnitPhase)

theorem leads_rpush (values : List Byte) : Leads (values.map .rpush) ⟨.running, checksum⟩ ⟨.running, checksum⟩ :=
  .map_self (fun v r hr => by rw [Watch.next, UnitPhase.fed_running hr, Option.map_some]) values

theorem leads_pushes (m : BitVec 2) (values : List Byte) (h : conversion ≠ .running) :
    Leads (.rinit m :: values.map .rpush) ⟨conversion, checksum⟩ ⟨.running, checksum⟩ :=
  .cons (fun r _ => by rw [Watch.next, UnitPhase.begun_eq_some.mpr ⟨h, rfl⟩, Option.map_some]) (leads_rpush checksum values)

theorem leads_conversion (m : BitVec 2) (values : List Byte) (h : conversion ≠ .running) :
    Leads (conversionCommands m values) ⟨conversion, checksum⟩ ⟨.closed, checksum⟩ := by
  refine (leads_pushes conversion checksum m values h).append (js := [.rflush]) (.cons (fun r hr => ?_) (.nil _))
  rw [Watch.next, if_neg nofun, if_pos hr]

theorem leads_csym (values : List Byte) : Leads (values.map .csym) ⟨conversion, .running⟩ ⟨conversion, .running⟩ :=
  .map_self (fun v r hr => by rw [Watch.next, UnitPhase.fed_running hr, Option.map_some]) values

theorem leads_cpfx (pre : List Byte) : Leads (pre.map .cpfx) ⟨conversion, .running⟩ ⟨conversion, .running⟩ :=
  .map_self (fun c r hr => by rw [Watch.next, UnitPhase.fed_running hr, Option.map_some]) pre

theorem leads_checksum (pre symbols : List Byte) (h : checksum ≠ .running) :
    Leads (checksumCommands pre symbols) ⟨conversion, checksum⟩ ⟨conversion, .running⟩ :=
  .cons (fun r _ => by rw [Watch.next, UnitPhase.begun_eq_some.mpr ⟨h, rfl⟩, Option.map_some])
    (((leads_cpfx conversion pre).append (leads_csym conversion [0])).append (leads_csym conversion symbols))

theorem leads_generation (pre payload : List Byte) (h : checksum ≠ .running) :
    Leads (generationCommands pre payload) ⟨conversion, checksum⟩ ⟨conversion, .read⟩ := by
  have hpad : Leads (expand .cpad8) ⟨conversion, .running⟩ ⟨conversion, .running⟩ :=
    leads_csym conversion (List.replicate 8 0)
  have hget : Leads (expand .cget8) ⟨conversion, .running⟩ ⟨conversion, .read⟩ :=
    .cons (fun _ _ => rfl) (.map_self (f := .cget) (fun _ _ _ => rfl) [1, 2, 3, 4, 5, 6, 7])
  exact ((leads_checksum conversion checksum pre payload h).append hpad).append hget

theorem leads_validation (pre symbols : List Byte) (h : checksum ≠ .running) :
    Leads (validationCommands pre symbols) ⟨conversion, checksum⟩ ⟨conversion, .read⟩ :=
  (leads_checksum conversion checksum pre symbols h).append (.cons (fun _ _ => rfl) (.nil _))

/-- One validation per candidate: each ends with a read, after which the next may begin. -/
theorem leads_validations (symbols : List Byte) (tried : List (List Byte)) (h : checksum ≠ .running) :
    ∃ p, Leads (tried.flatMap fun pre => validationCommands pre symbols) ⟨conversion, checksum⟩ ⟨conversion, p⟩ := by
  induction tried generalizing checksum with
  | nil => exact ⟨checksum, .nil _⟩
  | cons pre tried ih =>
    obtain ⟨p, hp⟩ := ih .read nofun
    exact ⟨p, (leads_validation conversion checksum pre symbols h).append hp⟩

end Standing

/-! ### Misuse (R173, R177, R178) -/

section Misuse
variable {w v : Watch} {r : Response}

theorem disciplined_rpush_of_not_begun (h : w.conversion = .closed ∨ w.conversion = .failed) (b : Byte) (r : Response)
    (rest : List (Instr × Response)) : disciplined w ((.rpush b, r) :: rest) = false := by
  refine disciplined_cons_eq_false fun v hv => ?_
  obtain ⟨p, hp, -⟩ := Option.map_eq_some_iff.mp hv
  obtain ⟨hbegun, -⟩ := UnitPhase.fed_eq_some.mp hp
  rcases h with h | h <;> rw [h] at hbegun <;> simp at hbegun

theorem disciplined_feed_of_not_begun (h : w.checksum = .closed ∨ w.checksum = .failed) {i : Instr}
    (hi : ∃ b, i = .csym b ∨ i = .cpfx b) (r : Response) (rest : List (Instr × Response)) :
    disciplined w ((i, r) :: rest) = false := by
  refine disciplined_cons_eq_false fun v hv => ?_
  have hfed : ∃ p, w.checksum.fed r = some p := by
    obtain ⟨b, rfl | rfl⟩ := hi <;> exact (Option.map_eq_some_iff.mp hv).imp fun p hp => hp.1
  obtain ⟨p, hp⟩ := hfed
  obtain ⟨hbegun, -⟩ := UnitPhase.fed_eq_some.mp hp
  rcases h with h | h <;> rw [h] at hbegun <;> simp at hbegun

theorem disciplined_rflush_of_failed (h : w.conversion = .failed) (r : Response) (rest : List (Instr × Response)) :
    disciplined w ((.rflush, r) :: rest) = false :=
  disciplined_cons_eq_false fun v hv => by rw [Watch.next, if_pos h] at hv; cases hv

/-- A fault of the conversion leaves it failed. -/
theorem Watch.next_conversion_of_error {i : Instr} {k : FaultKind} (hi : (∃ b, i = .rpush b) ∨ i = .rflush)
    (h : w.next i (.error k) = some v) : v.conversion = .failed := by
  obtain ⟨b, rfl⟩ | rfl := hi
  · obtain ⟨p, hp, rfl⟩ := Option.map_eq_some_iff.mp h
    exact (UnitPhase.fed_eq_some.mp hp).2
  · rw [Watch.next] at h
    split at h
    · cases h
    · obtain rfl := Option.some_inj.mp h
      rfl

theorem Watch.next_csym_of_error {b : Byte} {k : FaultKind} (h : w.next (.csym b) (.error k) = some v) :
    v.checksum = .failed := by
  obtain ⟨p, hp, rfl⟩ := Option.map_eq_some_iff.mp h
  exact (UnitPhase.fed_eq_some.mp hp).2

theorem Watch.next_rinit_eq_some {m : BitVec 2} (h : w.next (.rinit m) r = some v) :
    w.conversion ≠ .running ∧ v = ⟨.running, w.checksum⟩ := by
  obtain ⟨p, hp, rfl⟩ := Option.map_eq_some_iff.mp h
  obtain ⟨hne, rfl⟩ := UnitPhase.begun_eq_some.mp hp
  exact ⟨hne, rfl⟩

theorem Watch.next_cinit_eq_some (h : w.next .cinit r = some v) : w.checksum ≠ .running ∧ v = ⟨w.conversion, .running⟩ := by
  obtain ⟨p, hp, rfl⟩ := Option.map_eq_some_iff.mp h
  obtain ⟨hne, rfl⟩ := UnitPhase.begun_eq_some.mp hp
  exact ⟨hne, rfl⟩

end Misuse

/-- A conversion pushed without a fault and not flushed is left open (R179). -/
theorem disciplined_of_no_rflush (w : Watch) (m : BitVec 2) (r : Response) (pushed : List (Byte × Response))
    (hok : ∀ p ∈ pushed, p.2.isOk = true) :
    disciplined w ((.rinit m, r) :: pushed.map fun p => (Instr.rpush p.1, p.2)) = false := by
  refine disciplined_cons_eq_false fun v hv => ?_
  obtain ⟨-, rfl⟩ := Watch.next_rinit_eq_some hv
  have hresponses : ∀ q ∈ (pushed.map fun p => (Instr.rpush p.1, p.2)).map Prod.snd, q.isOk = true := by
    rw [List.map_map]
    exact List.forall_mem_map.mpr hok
  have hafter := leads_rpush w.checksum (pushed.map Prod.fst) _ (by simp) hresponses
  refine Bool.eq_false_iff.mpr fun h => ?_
  obtain ⟨u, hu, hclosed⟩ := disciplined_iff_after.mp h
  obtain rfl := Option.some_inj.mp (hafter.symm.trans hu)
  exact hclosed rfl

/-! ### The calls (R131, R133, R135) -/

/-- A sequence that returns data has a run, and the run leads where the sequence does. -/
theorem exists_trace_of_issueAll {is : List Instr} {s t : State} {data : List Byte} {w v : Watch}
    (h : issueAll is s = ⟨.ok data, t⟩) (hleads : Leads is w v) : ∃ tr, trace is s = some (tr, t) ∧ w.after tr = some v := by
  obtain ⟨tr, htrace, hdata⟩ := issueAll_eq_ok_iff.mp h
  exact ⟨tr, htrace, hleads tr (trace_commands htrace) (forall_isOk_of_dataOf hdata)⟩

/-- The commands of an encode keep the rules, and the encode leaves the block as they do. -/
theorem encode_disciplined {hash pre payload check : List Byte} {ty : AddressType} {code : Nat} {s s₁ s₂ : State} (hs : s.Inv)
    (hcode : sizeCode (hash.length * 8) = some code)
    (h₁ : issueAll (conversionCommands 0 (versionByte ty code :: hash)) s = ⟨.ok payload, s₁⟩)
    (h₂ : issueAll (generationCommands pre payload) s₁ = ⟨.ok check, s₂⟩) (withPre : Bool) :
    ∃ tr t, trace (conversionCommands 0 (versionByte ty code :: hash) ++ generationCommands pre payload ++
        (payload ++ check).map .s2a) s = some (tr, t) ∧
      disciplined Watch.start tr = true ∧ (encodeAddress hash ty pre withPre s).block = t := by
  obtain ⟨xs, hto, -⟩ := issueAll_conversion_roundTrips (versionByte ty code :: hash)
  obtain ⟨_, hpayload⟩ := hto s hs
  cases h₁.symm.trans hpayload
  obtain ⟨_, s₃, hcheck, h₃⟩ := encode_stages_complete pre xs ((issueAll_keeps h₁).2 hs)
  cases h₂.symm.trans hcheck
  have hleads := ((leads_conversion .closed .closed 0 (versionByte ty code :: hash) nofun).append
    (leads_generation .closed .closed pre (symbolBytes xs) nofun)).append
    (.map_self (f := .s2a) (fun _ _ _ => rfl) (symbolBytes xs ++ symbolBytes (checksumOf pre xs)))
  obtain ⟨tr, htrace, hafter⟩ := exists_trace_of_issueAll (issueAll_append (issueAll_append h₁ h₂) h₃) hleads
  exact ⟨tr, s₃, htrace, disciplined_iff_after.mpr ⟨_, hafter, nofun⟩,
    congrArg Call.block (encodeAddress_of_stages hcode h₁ h₂ h₃ withPre)⟩

/-- Validating candidates never faults on symbols. -/
theorem issueAll_validations (xs : List Symbol) (tried : List (List Byte)) {s : State} (hs : s.Inv) :
    ∃ data t, issueAll (tried.flatMap fun pre => validationCommands pre (symbolBytes xs)) s = ⟨.ok data, t⟩ := by
  induction tried generalizing s with
  | nil => exact ⟨[], s, rfl⟩
  | cons pre tried ih =>
    obtain ⟨_, _, u, hvalid, -⟩ := issueAll_validation hs pre xs
    obtain ⟨data, t, hrest⟩ := ih ((issueAll_keeps hvalid).2 hs)
    exact ⟨_, t, issueAll_append hvalid hrest⟩

/-- Pushing values that fit never faults. -/
theorem issueAll_rpush {values : List Byte} {s : State} (hs : s.Inv) (h : ∀ v ∈ values, v.toNat < 2 ^ fromWidth s.dir) :
    ∃ data t, issueAll (values.map .rpush) s = ⟨.ok data, t⟩ := by
  induction values generalizing s with
  | nil => exact ⟨[], s, rfl⟩
  | cons v values ih =>
    obtain ⟨hv, hvalues⟩ := List.forall_mem_cons.mp h
    have hexec := exec_rpush_of_lt hs hv rfl rfl
    obtain ⟨data, t, hrest⟩ := ih ((exec_answers _ s _ hexec).inv hs) hvalues
    refine ⟨_, t, issueAll_cons_eq_ok_iff.mpr ⟨_, _, _, _, issue_of_exec hexec rfl, responseData_responseOfData ?_, hrest, rfl⟩⟩
    simpa using pushCount_div_le hs

/-- Pushing symbols into a strict conversion never faults; only the flush can. -/
theorem issueAll_pushes (xs : List Symbol) {s : State} (hs : s.Inv) :
    ∃ data t, issueAll (.rinit 3 :: (symbolBytes xs).map .rpush) s = ⟨.ok data, t⟩ := by
  have hexec := exec_rinit hs 3
  have hlt : ∀ v ∈ symbolBytes xs, v.toNat < 2 ^ fromWidth (operandDir 3) :=
    List.forall_mem_map.mpr fun x _ => (BitVec.toNat_setWidth_of_le (by decide)).trans_lt x.isLt
  obtain ⟨data, t, hpush⟩ := issueAll_rpush ((exec_answers _ s _ hexec).inv hs) hlt
  exact ⟨data, t, issueAll_cons_eq_ok_iff.mpr ⟨_, _, _, _, issue_of_exec hexec rfl, rfl, hpush, rfl⟩⟩

/-- The commands of a decode keep the rules, whatever candidates are tried: only the last of them, the flush, can fault. -/
theorem decode_disciplined {text symbols : List Byte} {s s₁ : State} (hs : s.Inv)
    (h : issueAll (text.map .a2s) s = ⟨.ok symbols, s₁⟩) (tried : List (List Byte)) :
    ∃ tr t, trace (text.map .a2s ++ tried.flatMap (fun p => validationCommands p symbols) ++
        conversionCommands 3 (symbols.take (symbols.length - 8))) s = some (tr, t) ∧
      disciplined Watch.start tr = true := by
  obtain ⟨xs, rfl⟩ := exists_symbolBytes_of_issueAll_a2s h
  obtain ⟨_, s₂, hvalid⟩ := issueAll_validations xs tried ((issueAll_keeps h).2 hs)
  have hall := issueAll_append h hvalid
  obtain ⟨_, s₃, hpush⟩ := issueAll_pushes (xs.take ((symbolBytes xs).length - 8)) ((issueAll_keeps hall).2 hs)
  rw [symbolBytes, List.map_take] at hpush
  obtain ⟨p, hleads⟩ := leads_validations .closed .closed (symbolBytes xs) tried nofun
  have htext : Leads (text.map .a2s) Watch.start Watch.start := .map_self (fun _ _ _ => rfl) text
  obtain ⟨tr, htrace, hafter⟩ := exists_trace_of_issueAll (issueAll_append hall hpush)
    ((htext.append hleads).append (leads_pushes .closed p 3 _ nofun))
  obtain ⟨r, t, hflush⟩ := issue_completes .rflush ((trace_keeps htrace).2 hs)
  have hlast : trace [.rflush] s₃ = some ([(.rflush, r)], t) := trace_cons_eq_some_iff.mpr ⟨r, t, [], hflush, rfl, rfl⟩
  refine ⟨tr ++ [(.rflush, r)], t, ?_, disciplined_iff_after.mpr ⟨⟨if r.isOk then .closed else .failed, p⟩, ?_, ?_⟩⟩
  · rw [← trace_append htrace hlast]
    simp [conversionCommands]
  · rw [Watch.after_append, hafter]
    rfl
  · dsimp only
    split <;> exact nofun

/-! ### The statement -/

/-- Settles O54: the two calls by where their sequences lead, the misuse command by command. -/
theorem callsKeepTheHostRules : Obligations.CallsKeepTheHostRules := by
  refine ⟨fun hash pre payload check ty code withPre s s₁ s₂ hs hcode h₁ h₂ => encode_disciplined hs hcode h₁ h₂ withPre,
    fun text symbols tried s s₁ hs h _ => decode_disciplined hs h tried,
    fun w v r rest h => disciplined_rpush_of_not_begun h v r rest,
    fun w r rest h => disciplined_rflush_of_failed h r rest,
    fun w i r rest h hi => disciplined_feed_of_not_begun h hi r rest,
    fun w v u k r rest => ⟨?_, ?_, ?_⟩, fun w m n r q rest => ⟨?_, ?_⟩, disciplined_of_no_rflush⟩
  · exact disciplined_cons_eq_false fun v' hv =>
      disciplined_rpush_of_not_begun (.inr (Watch.next_conversion_of_error (.inl ⟨v, rfl⟩) hv)) u r rest
  · exact disciplined_cons_eq_false fun v' hv =>
      disciplined_rpush_of_not_begun (.inr (Watch.next_conversion_of_error (.inr rfl) hv)) u r rest
  · exact disciplined_cons_eq_false fun v' hv =>
      disciplined_feed_of_not_begun (.inr (Watch.next_csym_of_error hv)) ⟨u, .inl rfl⟩ r rest
  · refine disciplined_cons_eq_false fun v hv => disciplined_cons_eq_false fun v' hv' => ?_
    obtain ⟨-, rfl⟩ := Watch.next_rinit_eq_some hv
    exact absurd rfl (Watch.next_rinit_eq_some hv').1
  · refine disciplined_cons_eq_false fun v hv => disciplined_cons_eq_false fun v' hv' => ?_
    obtain ⟨-, rfl⟩ := Watch.next_cinit_eq_some hv
    exact absurd rfl (Watch.next_cinit_eq_some hv').1

end Sys2Proof.Machine
end

section
/-! ## Exceptions: what a fault leaves, and a block with nothing pending (R152, R167)

A word that answers a next state ends with one response (`runWord_endsWith`); where that response has an error code, it is a fault's,
and the block is left as the fault's one entry leaves it (`runWord_fault`). -/

namespace Sys2Proof.Machine

/-! ### The code and the flag of a fault (R151) -/

/-- Only an error has a code other than 0. -/
theorem exists_error_of_code_ne_zero {c : Response} (h : (responseWord c).extractLsb' 28 4 ≠ 0) : ∃ k, c = .error k := by
  cases c with
  | error k => exact ⟨k, rfl⟩
  | ok0 | ok1 | ok2 => exact absurd (rspWord_err _ _ _ _) h

/-- An error is returned as its code alone, with `n` = 0 and no data (R152 (c)). -/
theorem responseWord_error (k : FaultKind) : responseWord (.error k) = (faultCode k).setWidth 32 <<< 28 := by
  cases k <;> rfl

/-- The rows of R151: each kind's code with its flag. -/
theorem faultCode_faultFlag_mem (k : FaultKind) :
    (faultCode k, faultFlag k) ∈ [((1 : BitVec 4), (0b0001 : BitVec 4)), (2, 0b0010), (3, 0b0100), (15, 0b1000)] := by
  cases k <;> decide

/-! ### What a fault leaves (R152) -/

/-- The twelve commands answer only where the invariant holds, and an illegal word is a fault whatever the state. -/
theorem runWord_endsWith {w : CmdWord} {s t : State} (h : runWord w s = .next t) : ∃ c u, EndsWith s (runWord w s) c u := by
  cases hd : decode w with
  | ok i =>
    rw [runWord_of_decode_ok hd] at h ⊢
    exact exec_endsWith i (inv_of_exec_next h)
  | error e =>
    rw [runWord_of_decode_error hd]
    exact ⟨_, _, endsWith_raise s .illegalCommand⟩

/-- A response with an error code tells the fault, and so the whole next state. -/
theorem runWord_fault {w : CmdWord} {s t : State} {r : RspWord} (h : runWord w s = .next t)
    (hr : t.responses = s.responses ++ [r]) (hcode : r.extractLsb' 28 4 ≠ 0) :
    ∃ k, r = responseWord (.error k) ∧ t = respond (.error k) (withFlag k s) := by
  obtain ⟨c, u, hnext, hflag⟩ := runWord_endsWith h
  cases h.symm.trans hnext
  obtain rfl : responseWord c = r := List.singleton_inj.mp (List.append_inj_right' hr rfl)
  obtain ⟨k, rfl⟩ := exists_error_of_code_ne_zero hcode
  exact ⟨k, rfl, by rw [hflag k rfl]⟩

/-! ### The statements -/

/-- Settles O19: the error code tells the kind, whose one entry sets the flag and returns the code (`runWord_fault`); every word keeps
the invariant (`runWord_answers`). -/
theorem faultChangesOnlyItsFlag : Obligations.FaultChangesOnlyItsFlag := by
  intro w s t r h hr hcode
  refine ⟨?_, (runWord_answers w s t h).inv⟩
  obtain ⟨k, rfl, rfl⟩ := runWord_fault h hr hcode
  exact ⟨(faultCode k, faultFlag k), faultCode_faultFlag_mem k, responseWord_error k, by rw [← responseWord_error k]; rfl⟩

/-- Settles O11: `step` on an empty command port is the waiting step. -/
theorem nothingPendingHoldsTheState : Obligations.NothingPendingHoldsTheState := fun _ => step_of_idle

end Sys2Proof.Machine
end

section
/-! ## Hardware reset as an event of the host (R170)

`step_of_reset` says which step the event is; `resetRegisters_eq` writes out the state it leaves, field by field. -/

namespace Sys2Proof.Machine

/-- The six values of R35, beside the ports and `ALPHA31` as they were (R32). -/
theorem resetRegisters_eq (s : State) :
    resetRegisters s =
      { chk := 1, acc := 0, bits := 0, dir := false, strict := false, err := 0,
        pending := s.pending, responses := s.responses, config := s.config } := rfl

/-- Settles O10: the step on a reset event is `resetRegisters` of the state with the event taken off the command port. -/
theorem hardResetIsAStepOfItsOwn : Obligations.HardResetIsAStepOfItsOwn := by
  intro s rest h
  rw [step_of_reset h, resetRegisters_eq]

end Sys2Proof.Machine
end
